-- ==== Sys2Proof/Word.lean ====
section
/-! DEFINITION. The word types of the E20 core (spec/00_scope.md R9, R14) and the narrowing of an exact integer to
a word. -/

namespace Sys2Proof

/-- A register, a memory word or an instruction: an unsigned 16-bit value (R9 WORD_BITS, R14). -/
abbrev Word := BitVec 16

/-- A value of the program counter or a word address of memory: an unsigned 13-bit value (R9 PC_BITS, ADDR_BITS). -/
abbrev Addr := BitVec 13

/-- A register number: a 3-bit field, all of whose eight values name a register (R9 NREGS, R68). -/
abbrev RegIdx := BitVec 3

/-- The short immediate field `w[6:0]` (R9 IMM7_BITS). -/
abbrev Imm7 := BitVec 7

/-- The jump immediate field `w[12:0]` (R9 IMM13_BITS). -/
abbrev Imm13 := BitVec 13

/-- `v mod 65536` of an exact integer (R14). -/
def Word.ofExact (v : Int) : Word := BitVec.ofInt 16 v

/-- `t mod 8192` of an exact integer (R14, R16). -/
def Addr.ofExact (t : Int) : Addr := BitVec.ofInt 13 t

end Sys2Proof
end

