-- ==== Sys2Proof/Syntax.lean ====
section
/-! DEFINITION. The instructions of the E20 core: one constructor per row of spec/opcode_table.json, with the operands
the row's format gives it (spec/30_encoding.md R61 to R63). Fields a rule ignores are operands too (`ignored`), so that
an instruction determines its word; no meaning reads them (R71). DESIGN CHOICE, log entry 8 (safe). -/

namespace Sys2Proof

/-- An instruction. Field names are the spec's (R17, R61, R62, R63). -/
inductive Instr where
  /-- add, opcode 000 (R90). -/
  | add (regSrcA regSrcB regDst : RegIdx)
  /-- sub, opcode 000 (R91). -/
  | sub (regSrcA regSrcB regDst : RegIdx)
  /-- or, opcode 000 (R92). -/
  | or (regSrcA regSrcB regDst : RegIdx)
  /-- and, opcode 000 (R93). -/
  | and (regSrcA regSrcB regDst : RegIdx)
  /-- slt, opcode 000 (R94). -/
  | slt (regSrcA regSrcB regDst : RegIdx)
  /-- jr, opcode 000, func 1000; `ignored` is w[9:4] (R95). -/
  | jr (regSrcA : RegIdx) (ignored : BitVec 6)
  /-- The reserved function code 5 of opcode 000; `ignored` is w[12:4] (R96). -/
  | reservedFunc5 (ignored : BitVec 9)
  /-- The reserved function code 6 of opcode 000; `ignored` is w[12:4] (R96). -/
  | reservedFunc6 (ignored : BitVec 9)
  /-- The reserved function code 7 of opcode 000; `ignored` is w[12:4] (R96). -/
  | reservedFunc7 (ignored : BitVec 9)
  /-- The reserved function code 9 of opcode 000; `ignored` is w[12:4] (R96). -/
  | reservedFunc9 (ignored : BitVec 9)
  /-- The reserved function code 10 of opcode 000; `ignored` is w[12:4] (R96). -/
  | reservedFunc10 (ignored : BitVec 9)
  /-- The reserved function code 11 of opcode 000; `ignored` is w[12:4] (R96). -/
  | reservedFunc11 (ignored : BitVec 9)
  /-- The reserved function code 12 of opcode 000; `ignored` is w[12:4] (R96). -/
  | reservedFunc12 (ignored : BitVec 9)
  /-- The reserved function code 13 of opcode 000; `ignored` is w[12:4] (R96). -/
  | reservedFunc13 (ignored : BitVec 9)
  /-- The reserved function code 14 of opcode 000; `ignored` is w[12:4] (R96). -/
  | reservedFunc14 (ignored : BitVec 9)
  /-- The reserved function code 15 of opcode 000; `ignored` is w[12:4] (R96). -/
  | reservedFunc15 (ignored : BitVec 9)
  /-- addi, opcode 001 (R97). -/
  | addi (regSrc regDst : RegIdx) (imm7 : Imm7)
  /-- j, opcode 010 (R99). -/
  | j (imm13 : Imm13)
  /-- jal, opcode 011 (R100). -/
  | jal (imm13 : Imm13)
  /-- lw, opcode 100 (R105). -/
  | lw (regAddr regDst : RegIdx) (imm7 : Imm7)
  /-- sw, opcode 101 (R106). -/
  | sw (regAddr regSrc : RegIdx) (imm7 : Imm7)
  /-- jeq, opcode 110 (R101). -/
  | jeq (regA regB : RegIdx) (imm7 : Imm7)
  /-- slti, opcode 111 (R98). -/
  | slti (regSrc regDst : RegIdx) (imm7 : Imm7)
  deriving DecidableEq, Repr

/-- The row of spec/opcode_table.json an instruction stands for. -/
def Instr.mnemonic : Instr → String
  | .add _ _ _ => "add"
  | .sub _ _ _ => "sub"
  | .or _ _ _ => "or"
  | .and _ _ _ => "and"
  | .slt _ _ _ => "slt"
  | .jr _ _ => "jr"
  | .reservedFunc5 _ => "reserved_func_5"
  | .reservedFunc6 _ => "reserved_func_6"
  | .reservedFunc7 _ => "reserved_func_7"
  | .reservedFunc9 _ => "reserved_func_9"
  | .reservedFunc10 _ => "reserved_func_10"
  | .reservedFunc11 _ => "reserved_func_11"
  | .reservedFunc12 _ => "reserved_func_12"
  | .reservedFunc13 _ => "reserved_func_13"
  | .reservedFunc14 _ => "reserved_func_14"
  | .reservedFunc15 _ => "reserved_func_15"
  | .addi _ _ _ => "addi"
  | .j _ => "j"
  | .jal _ => "jal"
  | .lw _ _ _ => "lw"
  | .sw _ _ _ => "sw"
  | .jeq _ _ _ => "jeq"
  | .slti _ _ _ => "slti"

end Sys2Proof
end

