-- ==== Sys2Proof/WellFormed.lean ====
section
/-! DEFINITION. Well-formedness. A term of `Instr` is always well formed: each of its fields has exactly the width the
encoding gives it, and the spec has no illegal value of any field and no illegal encoding (spec/30_encoding.md R68, R72).
The ranges the spec does state are those of the numbers an instruction is WRITTEN with (R74, R75): register numbers 0 to 7,
immediates -64 to 63, addresses 0 to 8191. They are checked here, on the terms of the assembler notation.
Log entry 11: the notation is modelled as terms, not as text. -/

namespace Sys2Proof

/-- The operations of format RRR that write a register (R75, first row). -/
inductive RrrOp where
  | add | sub | or | and | slt
  deriving DecidableEq, Repr

/-- A line of the assembler notation of R75 and R76, with its operands as the numbers written there. -/
inductive AsmLine where
  /-- `op $d, $a, $b` -/
  | rrr (op : RrrOp) (d a b : Nat)
  /-- `jr $a` -/
  | jr (a : Nat)
  /-- `addi $d, $s, imm` -/
  | addi (d s : Nat) (imm : Int)
  /-- `slti $d, $s, imm` -/
  | slti (d s : Nat) (imm : Int)
  /-- `lw $d, imm($a)` -/
  | lw (d : Nat) (imm : Int) (a : Nat)
  /-- `sw $s, imm($a)` -/
  | sw (s : Nat) (imm : Int) (a : Nat)
  /-- `jeq $a, $b, off` -/
  | jeq (a b : Nat) (off : Int)
  /-- `jeq $a, $b, L` with a label that stands for the address L -/
  | jeqLabel (a b : Nat) (label : Nat)
  /-- `j addr` -/
  | j (addr : Nat)
  /-- `jal addr` -/
  | jal (addr : Nat)
  /-- `.fill v` -/
  | fill (v : Nat)
  /-- `halt` (R76) -/
  | halt
  /-- `nop` (R76) -/
  | nop
  deriving DecidableEq, Repr

/-- A register number of the notation: 0 to 7 (R74). -/
def regOk (n : Nat) : Bool := decide (n < 8)

/-- An immediate or offset of the notation: -64 to 63 (R75). -/
def immOk (v : Int) : Bool := decide (-64 ≤ v) && decide (v ≤ 63)

/-- A word address of the notation: 0 to 8191 (R75). -/
def addrOk (a : Nat) : Bool := decide (a < 8192)

/-- The field value of a jeq to the address `label` from address `cur`: `off = L - (cur + 1)` (R75). -/
def labelOffset (cur label : Nat) : Int := (label : Int) - ((cur : Int) + 1)

/-- Whether a line standing at address `cur` has all its operands in range; otherwise it is an assembly error (R75). -/
def AsmLine.wellFormed (cur : Nat) : AsmLine → Bool
  | .rrr _ d a b => regOk d && regOk a && regOk b
  | .jr a => regOk a
  | .addi d s imm => regOk d && regOk s && immOk imm
  | .slti d s imm => regOk d && regOk s && immOk imm
  | .lw d imm a => regOk d && regOk a && immOk imm
  | .sw s imm a => regOk s && regOk a && immOk imm
  | .jeq a b off => regOk a && regOk b && immOk off
  | .jeqLabel a b label => regOk a && regOk b && addrOk label && immOk (labelOffset cur label)
  | .j addr => addrOk addr
  | .jal addr => addrOk addr
  | .fill v => decide (v < 65536)
  | .halt => addrOk cur
  | .nop => true

end Sys2Proof
end

