-- ==== Sys2Proof/Decode.lean ====
section
/-! DEFINITION. Decoding and encoding of the 16-bit instruction word (spec/30_encoding.md). Decoding is total: every one of
the 65536 words is an instruction and none is refused (R72, R80), and it depends on the word alone (R73). -/

namespace Sys2Proof

/-! ### The fields of a word (R60 to R63, R13) -/

/-- The opcode, `w[15:13]` (R60). -/
def opcodeField (w : Word) : BitVec 3 := w.extractLsb' 13 3

/-- `w[12:10]`: regSrcA of format RRR, rA of format RRI (R61, R62). -/
def fieldA (w : Word) : RegIdx := w.extractLsb' 10 3

/-- `w[9:7]`: regSrcB of format RRR, rB of format RRI (R61, R62). -/
def fieldB (w : Word) : RegIdx := w.extractLsb' 7 3

/-- `w[6:4]`: regDst of format RRR (R61). -/
def fieldD (w : Word) : RegIdx := w.extractLsb' 4 3

/-- `w[3:0]`: func of format RRR (R61). -/
def funcField (w : Word) : BitVec 4 := w.extractLsb' 0 4

/-- `w[9:4]`: the bits jr ignores (R71). -/
def jrIgnored (w : Word) : BitVec 6 := w.extractLsb' 4 6

/-- `w[12:4]`: the bits a reserved function ignores (R71). -/
def reservedIgnored (w : Word) : BitVec 9 := w.extractLsb' 4 9

/-- `w[6:0]`: imm7 of format RRI (R62, R64). -/
def imm7Field (w : Word) : Imm7 := w.extractLsb' 0 7

/-- `w[12:0]`: imm13 of format J (R63, R66). -/
def imm13Field (w : Word) : Imm13 := w.extractLsb' 0 13

/-! ### Decoding -/

/-- The map of the sixteen function codes of opcode 000 (R69). -/
def decodeRegReg (w : Word) : Instr :=
  match (funcField w).toNat with
  | 0 => .add (fieldA w) (fieldB w) (fieldD w)
  | 1 => .sub (fieldA w) (fieldB w) (fieldD w)
  | 2 => .or (fieldA w) (fieldB w) (fieldD w)
  | 3 => .and (fieldA w) (fieldB w) (fieldD w)
  | 4 => .slt (fieldA w) (fieldB w) (fieldD w)
  | 5 => .reservedFunc5 (reservedIgnored w)
  | 6 => .reservedFunc6 (reservedIgnored w)
  | 7 => .reservedFunc7 (reservedIgnored w)
  | 8 => .jr (fieldA w) (jrIgnored w)
  | 9 => .reservedFunc9 (reservedIgnored w)
  | 10 => .reservedFunc10 (reservedIgnored w)
  | 11 => .reservedFunc11 (reservedIgnored w)
  | 12 => .reservedFunc12 (reservedIgnored w)
  | 13 => .reservedFunc13 (reservedIgnored w)
  | 14 => .reservedFunc14 (reservedIgnored w)
  | _ => .reservedFunc15 (reservedIgnored w)

/-- The opcode map (R70): the instruction a word is. -/
def decode (w : Word) : Instr :=
  match (opcodeField w).toNat with
  | 0 => decodeRegReg w
  | 1 => .addi (fieldA w) (fieldB w) (imm7Field w)
  | 2 => .j (imm13Field w)
  | 3 => .jal (imm13Field w)
  | 4 => .lw (fieldA w) (fieldB w) (imm7Field w)
  | 5 => .sw (fieldA w) (fieldB w) (imm7Field w)
  | 6 => .jeq (fieldA w) (fieldB w) (imm7Field w)
  | _ => .slti (fieldA w) (fieldB w) (imm7Field w)

/-- The instruction read from a table word of `nbits` bits, the bits above them being 0. No instruction is longer than
one 16-bit word (R59), so a longer one is refused. -/
def decodeTableWord (nbits w : Nat) : Option Instr :=
  if nbits ≤ 16 then some (decode (BitVec.ofNat 16 (w % 2 ^ nbits))) else none

/-! ### Encoding (R74) -/

/-- Format RRR: `(a << 10) | (b << 7) | (d << 4) | func` (R74). -/
def encodeRrr (a b d : RegIdx) (func : BitVec 4) : Word :=
  (a.setWidth 16 <<< 10) ||| (b.setWidth 16 <<< 7) ||| (d.setWidth 16 <<< 4) ||| func.setWidth 16

/-- Format RRR of jr, with the six ignored bits as they stand (R71, R95). -/
def encodeJr (a : RegIdx) (ignored : BitVec 6) : Word :=
  (a.setWidth 16 <<< 10) ||| (ignored.setWidth 16 <<< 4) ||| 8#16

/-- Format RRR of a reserved function code, with the nine ignored bits as they stand (R71, R96). -/
def encodeReserved (ignored : BitVec 9) (func : BitVec 4) : Word :=
  (ignored.setWidth 16 <<< 4) ||| func.setWidth 16

/-- Format RRI: `(op << 13) | (a << 10) | (b << 7) | (i7 mod 128)` (R74). -/
def encodeRri (op : BitVec 3) (a b : RegIdx) (imm : Imm7) : Word :=
  (op.setWidth 16 <<< 13) ||| (a.setWidth 16 <<< 10) ||| (b.setWidth 16 <<< 7) ||| imm.setWidth 16

/-- Format J: `(op << 13) | i13` (R74). -/
def encodeJ (op : BitVec 3) (imm : Imm13) : Word :=
  (op.setWidth 16 <<< 13) ||| imm.setWidth 16

/-- The word of an instruction. -/
def encode : Instr → Word
  | .add a b d => encodeRrr a b d 0
  | .sub a b d => encodeRrr a b d 1
  | .or a b d => encodeRrr a b d 2
  | .and a b d => encodeRrr a b d 3
  | .slt a b d => encodeRrr a b d 4
  | .jr a x => encodeJr a x
  | .reservedFunc5 x => encodeReserved x 5
  | .reservedFunc6 x => encodeReserved x 6
  | .reservedFunc7 x => encodeReserved x 7
  | .reservedFunc9 x => encodeReserved x 9
  | .reservedFunc10 x => encodeReserved x 10
  | .reservedFunc11 x => encodeReserved x 11
  | .reservedFunc12 x => encodeReserved x 12
  | .reservedFunc13 x => encodeReserved x 13
  | .reservedFunc14 x => encodeReserved x 14
  | .reservedFunc15 x => encodeReserved x 15
  | .addi s d i => encodeRri 1 s d i
  | .j t => encodeJ 2 t
  | .jal t => encodeJ 3 t
  | .lw a d i => encodeRri 4 a d i
  | .sw a s i => encodeRri 5 a s i
  | .jeq a b i => encodeRri 6 a b i
  | .slti s d i => encodeRri 7 s d i

/-! ### The opcode table (spec/opcode_table.json) -/

/-- A row of the opcode table: a word w belongs to it when `w & mask = match`. -/
structure OpcodeRow where
  mnemonic : String
  mask : Word
  pattern : Word
  deriving DecidableEq, Repr

/-- Whether a word belongs to a row. -/
def OpcodeRow.covers (r : OpcodeRow) (w : Word) : Bool := w &&& r.mask == r.pattern

/-- The rows of opcode 000. -/
def regRegRows : List OpcodeRow :=
  [⟨"add", 0xE00F, 0x0000⟩, ⟨"sub", 0xE00F, 0x0001⟩, ⟨"or", 0xE00F, 0x0002⟩, ⟨"and", 0xE00F, 0x0003⟩,
   ⟨"slt", 0xE00F, 0x0004⟩, ⟨"jr", 0xE00F, 0x0008⟩]

/-- The rows of the reserved function codes of opcode 000. -/
def reservedRows : List OpcodeRow :=
  [⟨"reserved_func_5", 0xE00F, 0x0005⟩, ⟨"reserved_func_6", 0xE00F, 0x0006⟩, ⟨"reserved_func_7", 0xE00F, 0x0007⟩,
   ⟨"reserved_func_9", 0xE00F, 0x0009⟩, ⟨"reserved_func_10", 0xE00F, 0x000A⟩, ⟨"reserved_func_11", 0xE00F, 0x000B⟩,
   ⟨"reserved_func_12", 0xE00F, 0x000C⟩, ⟨"reserved_func_13", 0xE00F, 0x000D⟩, ⟨"reserved_func_14", 0xE00F, 0x000E⟩,
   ⟨"reserved_func_15", 0xE00F, 0x000F⟩]

/-- The rows of the opcodes 001 to 111. -/
def immediateRows : List OpcodeRow :=
  [⟨"addi", 0xE000, 0x2000⟩, ⟨"j", 0xE000, 0x4000⟩, ⟨"jal", 0xE000, 0x6000⟩, ⟨"lw", 0xE000, 0x8000⟩,
   ⟨"sw", 0xE000, 0xA000⟩, ⟨"jeq", 0xE000, 0xC000⟩, ⟨"slti", 0xE000, 0xE000⟩]

/-- The 23 rows of spec/opcode_table.json. -/
def opcodeTable : List OpcodeRow := regRegRows ++ reservedRows ++ immediateRows

/-! ### The assembler notation (R75, R76) -/

/-- The instruction of an RRR line. -/
def RrrOp.instr : RrrOp → RegIdx → RegIdx → RegIdx → Instr
  | .add, a, b, d => .add a b d
  | .sub, a, b, d => .sub a b d
  | .or, a, b, d => .or a b d
  | .and, a, b, d => .and a b d
  | .slt, a, b, d => .slt a b d

/-- The word of a line at address `cur`, whatever its operands: each operand is reduced to its field. -/
def AsmLine.word (cur : Nat) : AsmLine → Word
  | .rrr op d a b => encode (op.instr (BitVec.ofNat 3 a) (BitVec.ofNat 3 b) (BitVec.ofNat 3 d))
  | .jr a => encode (.jr (BitVec.ofNat 3 a) 0)
  | .addi d s imm => encode (.addi (BitVec.ofNat 3 s) (BitVec.ofNat 3 d) (BitVec.ofInt 7 imm))
  | .slti d s imm => encode (.slti (BitVec.ofNat 3 s) (BitVec.ofNat 3 d) (BitVec.ofInt 7 imm))
  | .lw d imm a => encode (.lw (BitVec.ofNat 3 a) (BitVec.ofNat 3 d) (BitVec.ofInt 7 imm))
  | .sw s imm a => encode (.sw (BitVec.ofNat 3 a) (BitVec.ofNat 3 s) (BitVec.ofInt 7 imm))
  | .jeq a b off => encode (.jeq (BitVec.ofNat 3 a) (BitVec.ofNat 3 b) (BitVec.ofInt 7 off))
  | .jeqLabel a b label =>
    encode (.jeq (BitVec.ofNat 3 a) (BitVec.ofNat 3 b) (BitVec.ofInt 7 (labelOffset cur label)))
  | .j addr => encode (.j (BitVec.ofNat 13 addr))
  | .jal addr => encode (.jal (BitVec.ofNat 13 addr))
  | .fill v => BitVec.ofNat 16 v
  | .halt => encode (.j (BitVec.ofNat 13 cur))
  | .nop => encode (.add 0 0 0)

/-- The word of a line standing at address `cur`; none for an assembly error (R75). -/
def assemble (cur : Nat) (l : AsmLine) : Option Word :=
  if l.wellFormed cur then some (l.word cur) else none

end Sys2Proof
end

