-- ==== Sys2Proof/Config.lean ====
section
/-! DEFINITION. What an implementation of the E20 core fixes (spec/00_scope.md R9 to R12) and the one value the spec
leaves free (spec/44_load_store.md R105, spec/92_eei_decisions.md D5). -/

namespace Sys2Proof

/-- The two legal values of the parameter `LS_ADDR_BITS` (R10). -/
inductive LsAddrBits where
  /-- 13: the default, normative in the spec. -/
  | bits13
  /-- 14: the reference's literal mask. -/
  | bits14
  deriving DecidableEq, Repr

/-- The width in bits to which lw and sw reduce their address (R10, R104). -/
def LsAddrBits.width : LsAddrBits → Nat
  | .bits13 => 13
  | .bits14 => 14

/-- The implementation parameters that a step consults. `MEM_INIT` is not among them: it is the memory the core
starts from (R11, `State.afterReset`). DESIGN CHOICE, log entry 1 (safe): State carries them as plain data. -/
structure Params where
  /-- `LS_ADDR_BITS` (R10). -/
  lsAddrBits : LsAddrBits
  deriving DecidableEq, Repr

/-- The default parameters: `LS_ADDR_BITS = 13` (R10). -/
def Params.standard : Params := { lsAddrBits := .bits13 }

/-- MEM_WORDS: the number of memory words (R9). -/
def memWords : Nat := 8192

/-- LINK_REG: the register that jal writes (R9, R25). -/
def linkReg : RegIdx := 7

/-- FREE VALUE, log entry 3 (safe): whether the n-th lw to register 0 with an address out of range faults. The spec admits
both outcomes (R105, D5, I4), so the constant has no body and nothing can be proved of its value. -/
opaque Config.lwZeroFaults : Nat → Bool

end Sys2Proof
end

