-- ==== Sys2Proof/Machine/State.lean ====
section
/-! DEFINITION. The state of the E20 core, the tuple (pc, R, M, run, fault) of spec/10_state.md R20, as plain data; two
fields of the model's own beside it (`params`, `freeCount`); the reasons a step can stop; and the reset state. -/

namespace Sys2Proof.Machine

/-- The run state (R34). -/
inductive RunState where
  /-- RUNNING -/
  | running
  /-- HALTED: the clean stop. -/
  | halted
  /-- FAULTED: the abnormal stop. -/
  | faulted
  deriving DecidableEq, Repr

/-- The fault causes (spec/60_exceptions.md R108). Codes 6 and 7 are unused and absent (I9). -/
inductive FaultCause where
  /-- 0: no fault. -/
  | none
  /-- 1: raised by lw. -/
  | loadAddrOutOfRange
  /-- 2: raised by sw. -/
  | storeAddrOutOfRange
  /-- 3: raised by the fetch; never, since pc has 13 bits. -/
  | fetchAddrOutOfRange
  /-- 4: raised by a register access; never, since a register number has 3 bits. -/
  | regIndexOutOfRange
  /-- 5: raised by no step (R110). -/
  | unclassified
  deriving DecidableEq, Repr

/-- The fault record `(cause, fpc, faddr)` (R36). -/
structure FaultRecord where
  cause : FaultCause
  fpc : Addr
  faddr : BitVec 14
  deriving DecidableEq, Repr

/-- The fault record `(0, 0, 0)` that reset leaves (R36). -/
def FaultRecord.clear : FaultRecord := { cause := .none, fpc := 0, faddr := 0 }

/-- The memory array M as pairs (word address, word): addresses strictly rising and below 8192, no entry equal to what
an unlisted address reads as (`Memory.wf`). The unit is the 16-bit word, which is the smallest the machine has
(spec/20_memory.md R43). DEDUCED, log entry 4 (safe). -/
abbrev Memory := List (Nat × Word)

/-- The state of the core (R20). -/
structure State where
  /-- The program counter; between steps, the address of the next instruction (R28). -/
  pc : Addr
  /-- R[0] to R[7] (R21); R[0] is a cell held at 0 (R23, log entry 9). -/
  regs : Vector Word 8
  /-- M[0] to M[8191] (R32). -/
  mem : Memory
  /-- The run state (R34). -/
  run : RunState
  /-- The fault record (R36). -/
  fault : FaultRecord
  /-- The MODEL's own: the implementation parameters (R10), which no step changes (log entry 1). -/
  params : Params
  /-- The MODEL's own: how many free values have been drawn (log entry 3). -/
  freeCount : Nat
  deriving DecidableEq, Repr

/-- The reasons for which the MODEL's step would stop without a next state: there are none. A fault of the core is a next
state with `run = FAULTED` and the fault record written (spec/40_cycle.md R86, log entry 5), and the rules are total
on every state and every word (spec/60_exceptions.md R110). -/
inductive Fault
  deriving DecidableEq, Repr

/-- The reasons for which the model refuses an instruction. -/
inductive Refusal where
  /-- Raised by an arm of `exec` for an instruction that has no meaning yet. Safe: a claim about a next state says nothing
  of it. No arm raises it. -/
  | notModelled (mnemonic : String)
  deriving DecidableEq, Repr

/-- The state when reset is released: pc 0, registers 0, RUNNING, fault record cleared (spec/70_reset_and_hazards.md R123,
R27, R31, R34, R36), with the default parameters (R10). Memory is the instance of `MEM_INIT` with nothing listed; the spec
gives it no contents (R11), and `State.afterReset` takes any. DESIGN CHOICE, log entry 2 (unsafe). -/
def State.reset : State :=
  { pc := 0
    regs := Vector.replicate 8 0
    mem := []
    run := .running
    fault := FaultRecord.clear
    params := Params.standard
    freeCount := 0 }

end Sys2Proof.Machine
end

