-- ==== Sys2Proof/Machine/Ops.lean ====
section
/-! DEFINITION. The named operations every instruction is built from: memory and register access, the two ends of a step
that continues or halts, taking a fault, and the fetch. There is no return from a fault or a halt: only reset
leaves them (spec/60_exceptions.md R113). -/

namespace Sys2Proof.Machine

/-! ### Memory (spec/20_memory.md R42 to R46) -/

/-- What an address that is not listed reads as. The spec leaves the initial memory to the parameter `MEM_INIT` (R11); a
memory of any contents is a list over this value. DESIGN CHOICE, log entry 2 (unsafe for claims about `State.reset`). -/
def unlistedWord : Word := 0

/-- The word a list of entries holds at an address. -/
def Memory.get (m : Memory) (a : Nat) : Word :=
  match m with
  | [] => unlistedWord
  | c :: rest => if c.1 = a then c.2 else Memory.get rest a

/-- Puts an entry at its place in the order of addresses. -/
def Memory.place (c : Nat × Word) : Memory → Memory
  | [] => [c]
  | d :: rest => if c.1 < d.1 then c :: d :: rest else d :: Memory.place c rest

/-- Sets the word at an address, keeping the canonical form: the value of an unlisted address is not listed. -/
def Memory.set (m : Memory) (a : Nat) (v : Word) : Memory :=
  let rest := m.filter fun c => decide (c.1 ≠ a)
  if v = unlistedWord then rest else Memory.place (a, v) rest

/-- Whether a list's addresses rise strictly, all at or above a bound. -/
def Memory.risesFrom (bound : Nat) : Memory → Bool
  | [] => true
  | c :: rest => decide (bound ≤ c.1) && Memory.risesFrom (c.1 + 1) rest

/-- The canonical form: addresses strictly rising, all of them in the address space, and no entry equal to what an unlisted
address reads as. -/
def Memory.wf (m : Memory) : Bool :=
  m.risesFrom 0 && m.all fun c => decide (c.1 < memWords) && decide (c.2 ≠ unlistedWord)

/-- The memory with the contents `MEM_INIT` gives it (spec/00_scope.md R11). -/
def Memory.ofInit (memInit : Addr → Word) : Memory :=
  (List.range memWords).filterMap fun a =>
    if memInit (BitVec.ofNat 13 a) = unlistedWord then none else some (a, memInit (BitVec.ofNat 13 a))

/-- The word M[a]. -/
def State.word (s : State) (a : Addr) : Word := s.mem.get a.toNat

/-- `MemRead(a, 1)`: none where the address is out of range (R45). -/
def State.memRead (s : State) (a : Nat) : Option Word :=
  if memWords ≤ a then none else some (s.mem.get a)

/-- `MemWrite(a, 1, v)`: none where the address is out of range (R46). -/
def State.memWrite (s : State) (a : Nat) (v : Word) : Option State :=
  if memWords ≤ a then none else some { s with mem := s.mem.set a v }

/-! ### Registers (spec/10_state.md R23, spec/40_cycle.md R83) -/

/-- `x[r]`: register 0 always reads 0 (R16, R23). -/
def State.readReg (s : State) (r : RegIdx) : Word :=
  if r = 0 then 0 else s.regs[r.toNat]'r.isLt

/-- `x[r] <- v`: a write to register 0 is discarded (R16, R83). -/
def State.writeReg (s : State) (r : RegIdx) (v : Word) : State :=
  if r = 0 then s else { s with regs := s.regs.set r.toNat v r.isLt }

/-! ### The program counter and the ends of a step (spec/40_cycle.md R79, R84, R85) -/

/-- `npc`, the address after the instruction being executed: `(cur + 1) mod 8192` (R79). While an instruction executes, the
field `pc` still holds `cur`. -/
def State.npc (s : State) : Addr := Addr.ofExact ((s.pc.toNat : Int) + 1)

/-- Post-execute of a step that continues: `pc <- t mod 8192` and `R[0] <- 0` (R84). -/
def State.postExecute (s : State) (t : Int) : State :=
  { s with pc := Addr.ofExact t, regs := s.regs.set 0 0 }

/-- Post-execute of an instruction that leaves the next-pc candidate at `npc` (R81, R84). -/
def State.advance (s : State) : State := s.postExecute s.npc.toNat

/-- Outcome Halt: `run <- HALTED` and `pc <- cur` (R85). -/
def State.halt (s : State) : State := { s with run := .halted }

/-! ### Faults (spec/40_cycle.md R86) -/

/-- Outcome Fault(cause, faddr): `run <- FAULTED`, `fault <- (cause, cur, faddr)`, and `pc` keeps `npc`; registers and
memory stay (R86, R112). -/
def State.takeFault (s : State) (cause : FaultCause) (faddr : BitVec 14) : State :=
  { s with run := .faulted, fault := { cause := cause, fpc := s.pc, faddr := faddr }, pc := s.npc }

/-- Counts one free value as drawn (log entry 3). -/
def State.drawFree (s : State) : State := { s with freeCount := s.freeCount + 1 }

/-! ### Fetch (spec/40_cycle.md R78) -/

/-- The instruction word at pc; never none, since pc is always in range (R78). -/
def State.fetch (s : State) : Option Word := s.memRead s.pc.toNat

end Sys2Proof.Machine
end

