-- ==== Sys2Proof/Machine/Flags.lean ====
section
/-! DEFINITION. The core has no flags and no condition codes (spec/10_state.md R33). What stands here in their place are the
two comparisons whose result an instruction writes to a register or consumes at once. -/

namespace Sys2Proof.Machine

/-- `if x <u y then 1 else 0`, the result of slt and slti (spec/41_reg_reg.md R94, spec/42_immediate.md R98). -/
def setOnLess (x y : Word) : Word := if x.toNat < y.toNat then 1 else 0

/-- The comparison of jeq, on the full 16-bit values (spec/43_jumps.md R101). -/
def sameWord (x y : Word) : Bool := decide (x = y)

end Sys2Proof.Machine
end

