-- ==== Sys2Proof/Machine/Operands.lean ====
section
/-! DEFINITION. The operand forms beside the plain register: the 7-bit immediate, signed (spec/00_scope.md R15) or as an
unsigned word (spec/30_encoding.md R65), the pc-relative target (R67) and base plus offset (spec/44_load_store.md R104). -/

namespace Sys2Proof.Machine

/-- `sext7(i)`: "if bit 6 set, subtract 128" (R15, R64). -/
def sext7 (i : Imm7) : Int := if i.getLsbD 6 then (i.toNat : Int) - 128 else (i.toNat : Int)

/-- `sext_16(i) = sext7(i) mod 65536` (R15, R65). -/
def sext16 (i : Imm7) : Word := Word.ofExact (sext7 i)

/-- The target of a taken jeq, `npc + sext7(imm7)`, before the reduction by the cycle (spec/43_jumps.md R101). -/
def State.branchTarget (s : State) (i : Imm7) : Int := (s.npc.toNat : Int) + sext7 i

/-- The effective address of lw and sw: `(x[regAddr] + sext7(imm7)) mod 2^LS_ADDR_BITS` (R104). -/
def State.effectiveAddress (s : State) (regAddr : RegIdx) (i : Imm7) : Nat :=
  ((((s.readReg regAddr).toNat : Int) + sext7 i) % ((2 : Int) ^ s.params.lsAddrBits.width)).toNat

/-- The 14-bit `faddr` that records an effective address (spec/10_state.md R36). -/
def faddrOf (ea : Nat) : BitVec 14 := BitVec.ofNat 14 ea

end Sys2Proof.Machine
end

