-- ==== Sys2Proof/Machine/Immediate.lean ====
section
/-! DEFINITION. addi and slti (spec/42_immediate.md R97, R98). Neither accesses memory, so neither faults. -/

namespace Sys2Proof.Machine

/-- addi: `(x[regSrc] + sext7(imm7)) mod 65536` (R97). -/
def execAddi (r d : RegIdx) (imm : Imm7) (s : State) : Host.Outcome State Fault Refusal :=
  .next (s.writeReg d (Word.ofExact (((s.readReg r).toNat : Int) + sext7 imm))).advance

/-- slti: 1 if the register is less than `sext_16(imm7)`, unsigned, else 0 (R98). -/
def execSlti (r d : RegIdx) (imm : Imm7) (s : State) : Host.Outcome State Fault Refusal :=
  .next (s.writeReg d (setOnLess (s.readReg r) (sext16 imm))).advance

end Sys2Proof.Machine
end

