-- ==== Sys2Proof/Machine/Jumps.lean ====
section
/-! DEFINITION. j with the halt idiom, jal and jeq (spec/43_jumps.md R99 to R101). None accesses memory, so none faults. -/

namespace Sys2Proof.Machine

/-- j: the halt when the target is the jump's own address, else a jump (R99). -/
def execJ (target : Imm13) (s : State) : Host.Outcome State Fault Refusal :=
  if target = s.pc then .next s.halt else .next (s.postExecute target.toNat)

/-- jal: `x[7] <- npc` and a jump; never a halt (R100). -/
def execJal (target : Imm13) (s : State) : Host.Outcome State Fault Refusal :=
  .next ((s.writeReg linkReg (s.npc.setWidth 16)).postExecute target.toNat)

/-- jeq: a jump relative to npc when the two registers are equal; never a halt (R101). -/
def execJeq (a b : RegIdx) (imm : Imm7) (s : State) : Host.Outcome State Fault Refusal :=
  .next (if sameWord (s.readReg a) (s.readReg b) then s.postExecute (s.branchTarget imm) else s.advance)

end Sys2Proof.Machine
end

