-- ==== Sys2Proof/Machine/LoadStore.lean ====
section
/-! DEFINITION. lw and sw (spec/44_load_store.md R104 to R106). They fault only for an effective address of 8192 or more,
which takes `LS_ADDR_BITS = 14`. -/

namespace Sys2Proof.Machine

/-- lw from an address out of range (R105): fault cause 1; but where the destination is register 0 the spec admits both
the fault and a step that changes only pc, and the free value of log entry 3 decides. -/
def loadOutOfRange (d : RegIdx) (ea : Nat) (s : State) : State :=
  if d = 0 then
    if Config.lwZeroFaults s.freeCount then s.drawFree.takeFault .loadAddrOutOfRange (faddrOf ea)
    else s.drawFree.advance
  else s.takeFault .loadAddrOutOfRange (faddrOf ea)

/-- lw: `x[regDst] <- MemRead(EA, 1)` (R105). -/
def execLw (r d : RegIdx) (imm : Imm7) (s : State) : Host.Outcome State Fault Refusal :=
  match s.memRead (s.effectiveAddress r imm) with
  | some v => .next (s.writeReg d v).advance
  | none => .next (loadOutOfRange d (s.effectiveAddress r imm) s)

/-- sw: `MemWrite(EA, 1, x[regSrc])` (R106). -/
def execSw (r v : RegIdx) (imm : Imm7) (s : State) : Host.Outcome State Fault Refusal :=
  match s.memWrite (s.effectiveAddress r imm) (s.readReg v) with
  | some s' => .next s'.advance
  | none => .next (s.takeFault .storeAddrOutOfRange (faddrOf (s.effectiveAddress r imm)))

end Sys2Proof.Machine
end

