-- ==== Sys2Proof/Machine/RegReg.lean ====
section
/-! DEFINITION. Opcode 000, the register-register group (spec/41_reg_reg.md R90 to R96). None of these instructions accesses
memory, so none faults. -/

namespace Sys2Proof.Machine

/-- The shape of the five operations that write regDst: both sources are read at the start of the step (R82), the write is
discarded for register 0 (R83), and the step continues at npc. -/
def regRegResult (f : Word → Word → Word) (a b d : RegIdx) (s : State) : State :=
  (s.writeReg d (f (s.readReg a) (s.readReg b))).advance

/-- add: `(A + B) mod 65536` (R90). -/
def execAdd (a b d : RegIdx) (s : State) : Host.Outcome State Fault Refusal :=
  .next (regRegResult (fun x y => Word.ofExact ((x.toNat : Int) + y.toNat)) a b d s)

/-- sub: `(A - B) mod 65536` (R91). -/
def execSub (a b d : RegIdx) (s : State) : Host.Outcome State Fault Refusal :=
  .next (regRegResult (fun x y => Word.ofExact ((x.toNat : Int) - y.toNat)) a b d s)

/-- or: bitwise (R92). -/
def execOr (a b d : RegIdx) (s : State) : Host.Outcome State Fault Refusal :=
  .next (regRegResult (fun x y => x ||| y) a b d s)

/-- and: bitwise (R93). -/
def execAnd (a b d : RegIdx) (s : State) : Host.Outcome State Fault Refusal :=
  .next (regRegResult (fun x y => x &&& y) a b d s)

/-- slt: 1 if A is less than B, unsigned, else 0 (R94). -/
def execSlt (a b d : RegIdx) (s : State) : Host.Outcome State Fault Refusal :=
  .next (regRegResult setOnLess a b d s)

/-- jr: the next pc is the register's value, reduced modulo 8192 by the cycle; no register is written (R95). -/
def execJr (a : RegIdx) (s : State) : Host.Outcome State Fault Refusal :=
  .next (s.postExecute (s.readReg a).toNat)

/-- The reserved function code 5: a no-op, only pc advances (R96). -/
def execReservedFunc5 (s : State) : Host.Outcome State Fault Refusal := .next s.advance

/-- The reserved function code 6: a no-op, only pc advances (R96). -/
def execReservedFunc6 (s : State) : Host.Outcome State Fault Refusal := .next s.advance

/-- The reserved function code 7: a no-op, only pc advances (R96). -/
def execReservedFunc7 (s : State) : Host.Outcome State Fault Refusal := .next s.advance

/-- The reserved function code 9: a no-op, only pc advances (R96). -/
def execReservedFunc9 (s : State) : Host.Outcome State Fault Refusal := .next s.advance

/-- The reserved function code 10: a no-op, only pc advances (R96). -/
def execReservedFunc10 (s : State) : Host.Outcome State Fault Refusal := .next s.advance

/-- The reserved function code 11: a no-op, only pc advances (R96). -/
def execReservedFunc11 (s : State) : Host.Outcome State Fault Refusal := .next s.advance

/-- The reserved function code 12: a no-op, only pc advances (R96). -/
def execReservedFunc12 (s : State) : Host.Outcome State Fault Refusal := .next s.advance

/-- The reserved function code 13: a no-op, only pc advances (R96). -/
def execReservedFunc13 (s : State) : Host.Outcome State Fault Refusal := .next s.advance

/-- The reserved function code 14: a no-op, only pc advances (R96). -/
def execReservedFunc14 (s : State) : Host.Outcome State Fault Refusal := .next s.advance

/-- The reserved function code 15: a no-op, only pc advances (R96). -/
def execReservedFunc15 (s : State) : Host.Outcome State Fault Refusal := .next s.advance

end Sys2Proof.Machine
end

