-- ==== Sys2Proof/Machine/Dispatch.lean ====
section
/-! DEFINITION. One arm per instruction: what executing it at a state gives. The state's pc is the address `cur` of the
instruction (spec/40_cycle.md R80, R81). -/

namespace Sys2Proof.Machine

def exec (i : Instr) (s : State) : Host.Outcome State Fault Refusal :=
  match i with
  | .add a b d => Sys2Proof.Machine.execAdd a b d s
  | .sub a b d => Sys2Proof.Machine.execSub a b d s
  | .or a b d => Sys2Proof.Machine.execOr a b d s
  | .and a b d => Sys2Proof.Machine.execAnd a b d s
  | .slt a b d => Sys2Proof.Machine.execSlt a b d s
  | .jr a _ => Sys2Proof.Machine.execJr a s
  | .reservedFunc5 _ => Sys2Proof.Machine.execReservedFunc5 s
  | .reservedFunc6 _ => Sys2Proof.Machine.execReservedFunc6 s
  | .reservedFunc7 _ => Sys2Proof.Machine.execReservedFunc7 s
  | .reservedFunc9 _ => Sys2Proof.Machine.execReservedFunc9 s
  | .reservedFunc10 _ => Sys2Proof.Machine.execReservedFunc10 s
  | .reservedFunc11 _ => Sys2Proof.Machine.execReservedFunc11 s
  | .reservedFunc12 _ => Sys2Proof.Machine.execReservedFunc12 s
  | .reservedFunc13 _ => Sys2Proof.Machine.execReservedFunc13 s
  | .reservedFunc14 _ => Sys2Proof.Machine.execReservedFunc14 s
  | .reservedFunc15 _ => Sys2Proof.Machine.execReservedFunc15 s
  | .addi r d imm => Sys2Proof.Machine.execAddi r d imm s
  | .j target => Sys2Proof.Machine.execJ target s
  | .jal target => Sys2Proof.Machine.execJal target s
  | .lw r d imm => Sys2Proof.Machine.execLw r d imm s
  | .sw r v imm => Sys2Proof.Machine.execSw r v imm s
  | .jeq a b imm => Sys2Proof.Machine.execJeq a b imm s
  | .slti r d imm => Sys2Proof.Machine.execSlti r d imm s

end Sys2Proof.Machine
end

