-- ==== Sys2Proof/Machine/Step.lean ====
section
/-! DEFINITION. One step of the core (spec/40_cycle.md R77, R88), and the placing of a word where the next step fetches. -/

namespace Sys2Proof.Machine

/-- The address a fetch fault would record: pc (spec/60_exceptions.md R108, code 3). -/
def fetchFaddr (s : State) : BitVec 14 := s.pc.setWidth 14

/-- One step request: it changes nothing unless the core is RUNNING (R77); otherwise it fetches, decodes and executes
one instruction (R78 to R88). -/
def step (s : State) : Host.Outcome State Fault Refusal :=
  match s.run with
  | .running =>
    match s.fetch with
    | some w => exec (decode w) s
    | none => .next (s.takeFault .fetchAddrOutOfRange (fetchFaddr s))
  | .halted => .next s
  | .faulted => .next s

/-- The state with a table word of `nbits` bits where the next step fetches its instruction: at M[pc], the core
RUNNING (log entry 6). -/
def State.withFetchWord (s : State) (nbits w : Nat) : State :=
  { s with mem := s.mem.set s.pc.toNat (BitVec.ofNat 16 (w % 2 ^ nbits)), run := .running }

end Sys2Proof.Machine
end

