-- ==== Sys2Proof/Machine/Interface.lean ====
section
/-! DEFINITION. The block interface (spec/10_state.md R40, R41), reset and boot (spec/70_reset_and_hazards.md R123 to R126)
and a run under the host's step limit (R130), one transaction at a time (spec/92_eei_decisions.md D2). -/

namespace Sys2Proof.Machine

/-! ### Encodings on the interface -/

/-- `status`: RUNNING = 0, HALTED = 1, FAULTED = 2; 3 never occurs (R34). -/
def RunState.status : RunState → BitVec 2
  | .running => 0
  | .halted => 1
  | .faulted => 2

/-- The 3-bit fault cause code (spec/60_exceptions.md R108). -/
def FaultCause.code : FaultCause → BitVec 3
  | .none => 0
  | .loadAddrOutOfRange => 1
  | .storeAddrOutOfRange => 2
  | .fetchAddrOutOfRange => 3
  | .regIndexOutOfRange => 4
  | .unclassified => 5

/-- The input signals (R40) but `obs_addr`, which changes nothing and is an argument of `State.outputs`. -/
structure Inputs where
  rst : Bool
  stepReq : Bool
  ldWe : Bool
  ldAddr : Addr
  ldData : Word
  deriving DecidableEq, Repr

/-- The output signals (R40). -/
structure Outputs where
  obsData : Word
  status : BitVec 2
  pcOut : Addr
  regOut : Vector Word 8
  faultCause : BitVec 3
  faultPc : Addr
  faultAddr : BitVec 14
  deriving DecidableEq, Repr

/-- What the host reads between steps, with `obs_addr` at the given address (R41). -/
def State.outputs (s : State) (obsAddr : Addr) : Outputs :=
  { obsData := s.word obsAddr
    status := s.run.status
    pcOut := s.pc
    regOut := Vector.ofFn fun i => s.readReg (BitVec.ofNat 3 i.val)
    faultCause := s.fault.cause.code
    faultPc := s.fault.fpc
    faultAddr := s.fault.faddr }

/-! ### Reset (R123) -/

/-- Reset: pc 0, registers 0, RUNNING, the fault record cleared; memory is not written (R123, spec/92_eei_decisions.md D10). -/
def State.applyReset (s : State) : State :=
  { s with pc := 0, regs := Vector.replicate 8 0, run := .running, fault := FaultRecord.clear }

/-- The state when reset is released, for any parameters and any `MEM_INIT` (R11, R123). -/
def State.afterReset (params : Params) (memInit : Addr → Word) : State :=
  { State.reset with mem := Memory.ofInit memInit, params := params }

/-- The load port: `M[ld_addr] <- ld_data` (R40). -/
def State.loadWord (s : State) (a : Addr) (v : Word) : State :=
  { s with mem := s.mem.set a.toNat v }

/-! ### Transactions -/

/-- One transaction: while `rst = 1` the core is held in reset and only the load port acts; otherwise a requested step is
taken (R40, R77, R123). DESIGN CHOICE, log entry 7 (unsafe): a transaction with `rst = 1` leaves the reset values at once. -/
def transact (inp : Inputs) (s : State) : Host.Outcome State Fault Refusal :=
  if inp.rst then
    .next (if inp.ldWe then s.applyReset.loadWord inp.ldAddr inp.ldData else s.applyReset)
  else if inp.stepReq then step s
  else .next s

/-- Transactions in order. -/
def transactAll : List Inputs → State → Host.Outcome State Fault Refusal
  | [], s => .next s
  | i :: rest, s =>
    match transact i s with
    | .next s' => transactAll rest s'
    | .fault r => .fault r
    | .refused r => .refused r

/-- `rst` asserted or released, with nothing else. -/
def rstInputs (rst : Bool) : Inputs := { rst := rst, stepReq := false, ldWe := false, ldAddr := 0, ldData := 0 }

/-- One word through the load port, under reset. -/
def loadInputs (a : Nat) (v : Word) : Inputs :=
  { rst := true, stepReq := false, ldWe := true, ldAddr := BitVec.ofNat 13 a, ldData := v }

/-- The words of an image through the load port, from an address on. -/
def imageInputs : Nat → List Word → List Inputs
  | _, [] => []
  | a, w :: rest => loadInputs a w :: imageInputs (a + 1) rest

/-- The boot order up to the release of reset (R125): assert `rst`, write the image from address 0 on, release `rst`. An
image beyond the memory's capacity is a load error: reset is never released and there is no run (R126). -/
def boot (image : List Word) (s : State) : Option (Host.Outcome State Fault Refusal) :=
  if memWords < image.length then none
  else some (transactAll (rstInputs true :: (imageInputs 0 image ++ [rstInputs false])) s)

/-! ### A run under the host's step limit (R89, R130) -/

/-- How a run stands when the host stops requesting steps. -/
inductive RunReport where
  /-- The run ended in HALTED. -/
  | halted (s : State)
  /-- The run ended in FAULTED. -/
  | faulted (s : State)
  /-- The limit was reached: the run has not ended. -/
  | notEnded (s : State)
  deriving DecidableEq, Repr

/-- What a state reports. -/
def State.report (s : State) : RunReport :=
  match s.run with
  | .running => .notEnded s
  | .halted => .halted s
  | .faulted => .faulted s

/-- Requests steps until the run state leaves RUNNING or the limit is reached (R125 item 4). -/
def runLimited : Nat → State → Host.Outcome RunReport Fault Refusal
  | 0, s => .next s.report
  | n + 1, s =>
    if s.run = .running then
      match step s with
      | .next s' => runLimited n s'
      | .fault r => .fault r
      | .refused r => .refused r
    else .next s.report

end Sys2Proof.Machine
end

