-- ==== Sys2Proof/Safety.lean ====
section
/-! DEFINITION. The terms the statements are written in: what an instruction changes and what it leaves, the invariant of
the core, the tables of spec/10_state.md, and the history of stores. -/

namespace Sys2Proof.Machine

/-! ### Frames -/

/-- The run state, the fault record and the model's own fields are as before. -/
def SameControl (s t : State) : Prop :=
  t.run = s.run ∧ t.fault = s.fault ∧ t.params = s.params ∧ t.freeCount = s.freeCount

/-- Every register and every word of memory reads as before. -/
def WritesNothing (s t : State) : Prop :=
  (∀ r : RegIdx, t.readReg r = s.readReg r) ∧ (∀ a : Addr, t.word a = s.word a)

/-- Register d holds v (0 if it is register 0); every other register and every word of memory reads as before. -/
def WritesReg (s t : State) (d : RegIdx) (v : Nat) : Prop :=
  (t.readReg d).toNat = (if d = 0 then 0 else v) ∧
    (∀ r : RegIdx, r ≠ d → t.readReg r = s.readReg r) ∧ (∀ a : Addr, t.word a = s.word a)

/-- The word at address ea holds v; every register and every other word of memory reads as before. -/
def StoresWord (s t : State) (ea : Nat) (v : Word) : Prop :=
  (∀ r : RegIdx, t.readReg r = s.readReg r) ∧
    (∀ a : Addr, t.word a = if a.toNat = ea then v else s.word a)

/-- Outcome Continue with the next pc given: the cell R[0] holds 0 and nothing of the run state changes (R84). -/
def ContinuesAt (s t : State) (nextPc : Nat) : Prop :=
  t.pc.toNat = nextPc ∧ t.regs[0] = 0 ∧ SameControl s t

/-- Outcome Halt: HALTED at the instruction's own address, nothing else changes (R85). -/
def HaltsHere (s t : State) : Prop :=
  t.run = .halted ∧ t.pc = s.pc ∧ WritesNothing s t ∧
    t.fault = s.fault ∧ t.params = s.params ∧ t.freeCount = s.freeCount

/-- `npc` as a number: `(cur + 1) mod 8192` (R79). -/
def nextAddr (s : State) : Nat := (s.pc.toNat + 1) % 8192

/-- Outcome Fault: FAULTED with the record `(cause, cur, ea)`, pc at npc, registers and memory as before (R86). -/
def FaultsWith (s t : State) (cause : FaultCause) (ea : Nat) : Prop :=
  t.run = .faulted ∧ t.fault.cause = cause ∧ t.fault.fpc = s.pc ∧ t.fault.faddr.toNat = ea ∧
    t.pc.toNat = nextAddr s ∧ WritesNothing s t ∧ t.params = s.params

/-! ### The invariant -/

/-- The invariant of the core: the cell R[0] holds 0 (R23); memory has its canonical form; the fault record is clear unless
the core is FAULTED (R36); and FAULTED means a lw or sw address out of range under the 14-bit width, with pc after the
faulting instruction (R86, R108, R109). -/
abbrev State.Inv (s : State) : Prop :=
  s.regs[0] = 0 ∧ s.mem.wf = true ∧
    (s.run ≠ .faulted → s.fault = FaultRecord.clear) ∧
    (s.run = .faulted →
      s.params.lsAddrBits = .bits14 ∧
        (s.fault.cause = .loadAddrOutOfRange ∨ s.fault.cause = .storeAddrOutOfRange) ∧
        8192 ≤ s.fault.faddr.toNat ∧ s.pc.toNat = (s.fault.fpc.toNat + 1) % 8192)

/-! ### The tables of spec/10_state.md R24 and R29 -/

/-- The registers an instruction reads (R24). -/
def regsRead : Instr → List RegIdx
  | .add a b _ => [a, b]
  | .sub a b _ => [a, b]
  | .or a b _ => [a, b]
  | .and a b _ => [a, b]
  | .slt a b _ => [a, b]
  | .jr a _ => [a]
  | .addi r _ _ => [r]
  | .slti r _ _ => [r]
  | .lw r _ _ => [r]
  | .sw r v _ => [r, v]
  | .jeq a b _ => [a, b]
  | .j _ => []
  | .jal _ => []
  | .reservedFunc5 _ => []
  | .reservedFunc6 _ => []
  | .reservedFunc7 _ => []
  | .reservedFunc9 _ => []
  | .reservedFunc10 _ => []
  | .reservedFunc11 _ => []
  | .reservedFunc12 _ => []
  | .reservedFunc13 _ => []
  | .reservedFunc14 _ => []
  | .reservedFunc15 _ => []

/-- The register an instruction writes (R24). -/
def regWritten : Instr → Option RegIdx
  | .add _ _ d => some d
  | .sub _ _ d => some d
  | .or _ _ d => some d
  | .and _ _ d => some d
  | .slt _ _ d => some d
  | .addi _ d _ => some d
  | .slti _ d _ => some d
  | .lw _ d _ => some d
  | .jal _ => some 7
  | .jr _ _ => none
  | .sw _ _ _ => none
  | .jeq _ _ _ => none
  | .j _ => none
  | .reservedFunc5 _ => none
  | .reservedFunc6 _ => none
  | .reservedFunc7 _ => none
  | .reservedFunc9 _ => none
  | .reservedFunc10 _ => none
  | .reservedFunc11 _ => none
  | .reservedFunc12 _ => none
  | .reservedFunc13 _ => none
  | .reservedFunc14 _ => none
  | .reservedFunc15 _ => none

/-- The next pc of each instruction, as the summary of R29 gives it. -/
def nextPcOf (i : Instr) (s : State) : Nat :=
  match i with
  | .j target => target.toNat
  | .jal target => target.toNat
  | .jr a _ => (s.readReg a).toNat % 8192
  | .jeq a b imm =>
    if s.readReg a = s.readReg b then (((nextAddr s : Int) + sext7 imm) % 8192).toNat else nextAddr s
  | _ => nextAddr s

/-! ### Stores and their history (spec/20_memory.md R47, R55) -/

/-- The word an instruction stores and its address: only sw, and only where its address is in range. -/
def storeOf (i : Instr) (s : State) : Option (Nat × Word) :=
  match i with
  | .sw r v imm =>
    if s.effectiveAddress r imm < 8192 then some (s.effectiveAddress r imm, s.readReg v) else none
  | _ => none

/-- The store of the step taken from a state. -/
def stepStore (s : State) : Option (Nat × Word) :=
  if s.run = .running then storeOf (decode (s.word s.pc)) s else none

/-- The value a store leaves at an address that held `v`. -/
def afterStore (st : Option (Nat × Word)) (a : Addr) (v : Word) : Word :=
  match st with
  | some (ea, w) => if a.toNat = ea then w else v
  | none => v

/-- The value of the most recent sw to an address in the n steps from a state; `v` if there is none. -/
def mostRecentStore (a : Addr) : Nat → State → Word → Word
  | 0, _, v => v
  | n + 1, s, v =>
    match step s with
    | .next t => mostRecentStore a n t (afterStore (stepStore s) a v)
    | .fault _ => v
    | .refused _ => v

/-- Whether executing an instruction raises a fault for certain: lw or sw with an address out of range, but for lw to
register 0, where the spec admits both outcomes (R105). -/
def mustFault (i : Instr) (s : State) : Prop :=
  match i with
  | .lw r d imm => 8192 ≤ s.effectiveAddress r imm ∧ d ≠ 0
  | .sw r _ imm => 8192 ≤ s.effectiveAddress r imm
  | _ => False

/-- The cause and address an instruction records if it faults: lw cause 1, sw cause 2, with the effective address, which is
out of range (R108). -/
def faultOf (i : Instr) (s : State) (cause : FaultCause) (ea : Nat) : Prop :=
  match i with
  | .lw r _ imm => cause = .loadAddrOutOfRange ∧ ea = s.effectiveAddress r imm ∧ 8192 ≤ ea
  | .sw r _ imm => cause = .storeAddrOutOfRange ∧ ea = s.effectiveAddress r imm ∧ 8192 ≤ ea
  | _ => False

end Sys2Proof.Machine
end

