-- ==== Sys2Proof/Certificates/Slice0/Obligations.lean ====
section
/-! DEFINITION. The statements about the model, for the provers. Each docstring names the rule of spec/ it formalises; a
statement about an instruction gives its result, its frame and its completion together. -/

open Sys2Proof Sys2Proof.Machine

/-! ### Opcode 000 (spec/41_reg_reg.md) -/

/-- R90: encoding, result, frame and completion of add. -/
def Obligations.AddWritesSumModulo65536 : Prop :=
  ∀ (a b d : RegIdx) (s : State),
    decode (BitVec.ofNat 16 (a.toNat * 1024 + b.toNat * 128 + d.toNat * 16)) = .add a b d ∧
      ∃ t, exec (.add a b d) s = .next t ∧ ContinuesAt s t (nextAddr s) ∧
        WritesReg s t d (((s.readReg a).toNat + (s.readReg b).toNat) % 65536)

/-- R91: encoding, result, frame and completion of sub. -/
def Obligations.SubWritesDifferenceModulo65536 : Prop :=
  ∀ (a b d : RegIdx) (s : State),
    decode (BitVec.ofNat 16 (a.toNat * 1024 + b.toNat * 128 + d.toNat * 16 + 1)) = .sub a b d ∧
      ∃ t, exec (.sub a b d) s = .next t ∧ ContinuesAt s t (nextAddr s) ∧
        WritesReg s t d ((((s.readReg a).toNat : Int) - (s.readReg b).toNat) % 65536).toNat

/-- R92: encoding, result, frame and completion of or. -/
def Obligations.OrWritesBitwiseOr : Prop :=
  ∀ (a b d : RegIdx) (s : State),
    decode (BitVec.ofNat 16 (a.toNat * 1024 + b.toNat * 128 + d.toNat * 16 + 2)) = .or a b d ∧
      ∃ t, exec (.or a b d) s = .next t ∧ ContinuesAt s t (nextAddr s) ∧
        WritesReg s t d ((s.readReg a).toNat ||| (s.readReg b).toNat)

/-- R93: encoding, result, frame and completion of and. -/
def Obligations.AndWritesBitwiseAnd : Prop :=
  ∀ (a b d : RegIdx) (s : State),
    decode (BitVec.ofNat 16 (a.toNat * 1024 + b.toNat * 128 + d.toNat * 16 + 3)) = .and a b d ∧
      ∃ t, exec (.and a b d) s = .next t ∧ ContinuesAt s t (nextAddr s) ∧
        WritesReg s t d ((s.readReg a).toNat &&& (s.readReg b).toNat)

/-- R94: encoding, result, frame and completion of slt. -/
def Obligations.SltWritesUnsignedLess : Prop :=
  ∀ (a b d : RegIdx) (s : State),
    decode (BitVec.ofNat 16 (a.toNat * 1024 + b.toNat * 128 + d.toNat * 16 + 4)) = .slt a b d ∧
      ∃ t, exec (.slt a b d) s = .next t ∧ ContinuesAt s t (nextAddr s) ∧
        WritesReg s t d (if (s.readReg a).toNat < (s.readReg b).toNat then 1 else 0)

/-- R95: encoding, next pc, frame and completion of jr. -/
def Obligations.JrJumpsToRegisterModulo8192 : Prop :=
  ∀ (a : RegIdx) (ignored : BitVec 6) (s : State),
    decode (BitVec.ofNat 16 (a.toNat * 1024 + ignored.toNat * 16 + 8)) = .jr a ignored ∧
      ∃ t, exec (.jr a ignored) s = .next t ∧ ContinuesAt s t ((s.readReg a).toNat % 8192) ∧
        WritesNothing s t

/-- R96: each of the ten reserved function codes is a no-op: only pc advances. -/
def Obligations.ReservedFunctionCodesAreNoOps : Prop :=
  ∀ p ∈ [(5, Instr.reservedFunc5), (6, Instr.reservedFunc6), (7, Instr.reservedFunc7),
         (9, Instr.reservedFunc9), (10, Instr.reservedFunc10), (11, Instr.reservedFunc11),
         (12, Instr.reservedFunc12), (13, Instr.reservedFunc13), (14, Instr.reservedFunc14),
         (15, Instr.reservedFunc15)],
    ∀ (ignored : BitVec 9) (s : State),
      decode (BitVec.ofNat 16 (ignored.toNat * 16 + p.1)) = p.2 ignored ∧
        ∃ t, exec (p.2 ignored) s = .next t ∧ ContinuesAt s t (nextAddr s) ∧ WritesNothing s t

/-! ### Immediates (spec/42_immediate.md) -/

/-- R97: encoding, result, frame and completion of addi. -/
def Obligations.AddiWritesSumWithSignedImmediate : Prop :=
  ∀ (r d : RegIdx) (imm : Imm7) (s : State),
    decode (BitVec.ofNat 16 (1 * 8192 + r.toNat * 1024 + d.toNat * 128 + imm.toNat)) = .addi r d imm ∧
      ∃ t, exec (.addi r d imm) s = .next t ∧ ContinuesAt s t (nextAddr s) ∧
        WritesReg s t d ((((s.readReg r).toNat : Int) + sext7 imm) % 65536).toNat

/-- R98: encoding, result, frame and completion of slti. -/
def Obligations.SltiComparesUnsignedWithExtendedImmediate : Prop :=
  ∀ (r d : RegIdx) (imm : Imm7) (s : State),
    decode (BitVec.ofNat 16 (7 * 8192 + r.toNat * 1024 + d.toNat * 128 + imm.toNat)) = .slti r d imm ∧
      ∃ t, exec (.slti r d imm) s = .next t ∧ ContinuesAt s t (nextAddr s) ∧
        WritesReg s t d (if (s.readReg r).toNat < (sext7 imm % 65536).toNat then 1 else 0)

/-- R15: sign extension of the 7-bit immediate, as an integer and as an unsigned 16-bit word, and zero extension. -/
def Obligations.ImmediateExtension : Prop :=
  (∀ i : Imm7,
    sext7 i = (if i.getLsbD 6 = true then (i.toNat : Int) - 128 else (i.toNat : Int)) ∧
      -64 ≤ sext7 i ∧ sext7 i ≤ 63 ∧
      ((sext16 i).toNat : Int) = sext7 i % 65536 ∧
      ∀ k, 7 ≤ k → k ≤ 15 → (sext16 i).getLsbD k = i.getLsbD 6) ∧
    ∀ (n m : Nat) (v : BitVec n), n ≤ m → (v.setWidth m).toNat = v.toNat

/-! ### Jumps (spec/43_jumps.md) -/

/-- R99: encoding of j; it halts when its target is its own address and jumps otherwise; nothing else halts. -/
def Obligations.JHaltsAtItsOwnAddressElseJumps : Prop :=
  (∀ (target : Imm13) (s : State),
    decode (BitVec.ofNat 16 (2 * 8192 + target.toNat)) = .j target ∧
      ∃ t, exec (.j target) s = .next t ∧
        if target = s.pc then HaltsHere s t
        else ContinuesAt s t target.toNat ∧ WritesNothing s t) ∧
    ∀ (i : Instr) (s t : State), exec i s = .next t → s.run = .running → t.run = .halted → i = .j s.pc

/-- R100: encoding, link, next pc, frame and completion of jal. -/
def Obligations.JalLinksAndJumps : Prop :=
  ∀ (target : Imm13) (s : State),
    decode (BitVec.ofNat 16 (3 * 8192 + target.toNat)) = .jal target ∧
      ∃ t, exec (.jal target) s = .next t ∧ ContinuesAt s t target.toNat ∧ WritesReg s t 7 (nextAddr s)

/-- R101: encoding, next pc, frame and completion of jeq. -/
def Obligations.JeqBranchesRelativeToNpcWhenEqual : Prop :=
  ∀ (a b : RegIdx) (imm : Imm7) (s : State),
    decode (BitVec.ofNat 16 (6 * 8192 + a.toNat * 1024 + b.toNat * 128 + imm.toNat)) = .jeq a b imm ∧
      ∃ t, exec (.jeq a b imm) s = .next t ∧ WritesNothing s t ∧
        ContinuesAt s t
          (if s.readReg a = s.readReg b then (((s.pc.toNat : Int) + 1 + sext7 imm) % 8192).toNat
           else nextAddr s)

/-- R102: jal is the call and `jr $7` the return: from any later state in which R7 still holds the link, it goes to the
address after the jal. -/
def Obligations.JrThroughLinkReturnsAfterJal : Prop :=
  ∀ (target : Imm13) (ignored : BitVec 6) (s : State),
    ∃ t, exec (.jal target) s = .next t ∧
      ∀ later : State, later.readReg 7 = t.readReg 7 →
        ∃ u, exec (.jr 7 ignored) later = .next u ∧ u.pc.toNat = (s.pc.toNat + 1) % 8192

/-! ### Loads and stores (spec/44_load_store.md, spec/20_memory.md) -/

/-- R104: the effective address under both widths, and when the access faults. -/
def Obligations.EffectiveAddressReducedToWidth : Prop :=
  ∀ (r : RegIdx) (imm : Imm7) (s : State),
    -64 ≤ ((s.readReg r).toNat : Int) + sext7 imm ∧ ((s.readReg r).toNat : Int) + sext7 imm ≤ 65598 ∧
      match s.params.lsAddrBits with
      | .bits13 =>
        (s.effectiveAddress r imm : Int) = (((s.readReg r).toNat : Int) + sext7 imm) % 8192 ∧
          s.effectiveAddress r imm < 8192 ∧
          ∀ (d : RegIdx) (t : State),
            (exec (.lw r d imm) s = .next t ∨ exec (.sw r d imm) s = .next t) → t.run = s.run
      | .bits14 =>
        (s.effectiveAddress r imm : Int) = (((s.readReg r).toNat : Int) + sext7 imm) % 16384 ∧
          s.effectiveAddress r imm < 16384 ∧
          (8192 ≤ s.effectiveAddress r imm →
            ∀ d : RegIdx,
              (d ≠ 0 → ∃ t, exec (.lw r d imm) s = .next t ∧ t.run = .faulted) ∧
                ∃ t, exec (.sw r d imm) s = .next t ∧ t.run = .faulted)

/-- R105: encoding of lw; in range it loads the whole word; out of range it faults with cause 1, but for register 0, where
both the fault and a step that changes only pc are admitted. -/
def Obligations.LwLoadsWordOrFaults : Prop :=
  ∀ (r d : RegIdx) (imm : Imm7) (s : State),
    decode (BitVec.ofNat 16 (4 * 8192 + r.toNat * 1024 + d.toNat * 128 + imm.toNat)) = .lw r d imm ∧
      ∃ t, exec (.lw r d imm) s = .next t ∧
        if s.effectiveAddress r imm < 8192 then
          ContinuesAt s t (nextAddr s) ∧
            WritesReg s t d (s.word (BitVec.ofNat 13 (s.effectiveAddress r imm))).toNat
        else
          s.params.lsAddrBits = .bits14 ∧
            if d ≠ 0 then
              FaultsWith s t .loadAddrOutOfRange (s.effectiveAddress r imm) ∧ t.freeCount = s.freeCount
            else
              FaultsWith s t .loadAddrOutOfRange (s.effectiveAddress r imm) ∨
                (t.pc.toNat = nextAddr s ∧ t.run = s.run ∧ t.fault = s.fault ∧ t.params = s.params ∧
                  WritesNothing s t)

/-- R106: encoding of sw; in range it stores the whole word; out of range it faults with cause 2. -/
def Obligations.SwStoresWordOrFaults : Prop :=
  ∀ (r v : RegIdx) (imm : Imm7) (s : State),
    decode (BitVec.ofNat 16 (5 * 8192 + r.toNat * 1024 + v.toNat * 128 + imm.toNat)) = .sw r v imm ∧
      ∃ t, exec (.sw r v imm) s = .next t ∧
        if s.effectiveAddress r imm < 8192 then
          ContinuesAt s t (nextAddr s) ∧ StoresWord s t (s.effectiveAddress r imm) (s.readReg v)
        else
          s.params.lsAddrBits = .bits14 ∧
            FaultsWith s t .storeAddrOutOfRange (s.effectiveAddress r imm) ∧ t.freeCount = s.freeCount

/-- The round-trip property of spec/95_test_vectors.md S5: a sw and then a lw with the same address operands give the
stored value back. -/
def Obligations.StoreThenLoadReturnsValue : Prop :=
  ∀ (r v d : RegIdx) (imm : Imm7) (s : State), s.effectiveAddress r imm < 8192 → d ≠ 0 →
    ∃ t u, exec (.sw r v imm) s = .next t ∧ exec (.lw r d imm) t = .next u ∧
      u.readReg d = s.readReg v

/-- R45: a read in range returns the word and a read out of range none (the caller's fault). -/
def Obligations.MemReadInRangeOnly : Prop :=
  ∀ (s : State) (a : Nat),
    s.memRead a = if 8192 ≤ a then none else some (s.word (BitVec.ofNat 13 a))

/-- R46: a write in range changes that one word; a write out of range is refused, memory unchanged. -/
def Obligations.MemWriteChangesOneWord : Prop :=
  ∀ (s : State) (a : Nat) (v : Word),
    if 8192 ≤ a then s.memWrite a v = none
    else ∃ t, s.memWrite a v = some t ∧ t = { s with mem := t.mem } ∧
      ∀ b : Addr, t.word b = if b.toNat = a then v else s.word b

/-- The memory array is written only by sw, and by it only at its effective address (R32, R47). -/
def Obligations.OnlySwChangesMemory : Prop :=
  ∀ (i : Instr) (s t : State), exec i s = .next t →
    ∀ a : Addr, t.word a = afterStore (storeOf i s) a (s.word a)

/-- R57: the word a sw stores is what the next step executes when pc is its address, and a sw at its own address does not
change the instruction of its own step. -/
def Obligations.NextFetchSeesStore : Prop :=
  ∀ (r v : RegIdx) (imm : Imm7) (s : State), s.run = .running → decode (s.word s.pc) = .sw r v imm →
    s.effectiveAddress r imm < 8192 →
    ∃ t, step s = .next t ∧ exec (.sw r v imm) s = .next t ∧
      ∀ a : Addr, a.toNat = s.effectiveAddress r imm →
        t.word a = s.readReg v ∧ step { t with pc := a } = exec (decode (s.readReg v)) { t with pc := a }

/-- R55: along every run, a fetch and a lw return the value of the most recent sw to the address, or `MEM_INIT` there if no
sw to it has executed. -/
def Obligations.ReadsReturnMostRecentStore : Prop :=
  ∀ (params : Params) (memInit : Addr → Word) (n : Nat), ∃ t : State,
    core.run n (State.afterReset params memInit) = .next t ∧
      (∀ a : Addr, t.word a = mostRecentStore a n (State.afterReset params memInit) (memInit a)) ∧
      t.fetch = some (mostRecentStore t.pc n (State.afterReset params memInit) (memInit t.pc)) ∧
      ∀ (r d : RegIdx) (imm : Imm7) (a : Addr), d ≠ 0 → t.effectiveAddress r imm = a.toNat →
        ∃ u, exec (.lw r d imm) t = .next u ∧
          u.readReg d = mostRecentStore a n (State.afterReset params memInit) (memInit a)

/-! ### Encoding (spec/30_encoding.md) -/

/-- Decoding the encoding of an instruction gives it back, for every operand. That the bits jr and the reserved function
codes ignore are operands too is the model's choice (log entry 8). -/
def Obligations.DecodeOfEncode : Prop := ∀ i : Instr, decode (encode i) = i

/-- Encoding what a word decodes to gives the word back: decoding drops no bit of any word. For the bits that a jr or a
reserved function code ignores this is the MODEL'S CHOICE (log entry 8: ignored bits are operands of the term) and no rule of
the spec; for every other bit it follows from the formats and the equations of R61 to R63 and R74. -/
def Obligations.EncodeOfDecode : Prop := ∀ w : Word, encode (decode w) = w

/-- R72: every word belongs to exactly one row of the opcode table, the row of the instruction it decodes to. -/
def Obligations.EveryWordHasExactlyOneRow : Prop :=
  ∀ w : Word, (opcodeTable.filter fun row => row.covers w).map OpcodeRow.mnemonic = [(decode w).mnemonic]

/-- R74: the encoding equations of the three formats, RRR for all sixteen function codes, and the example of the rule. The
terms of jr and of the reserved function codes hold the fields they ignore as one number, b * 8 + d and
a * 64 + b * 8 + d (log entry 8). -/
def Obligations.EncodingEquations : Prop :=
  (∀ p ∈ [(0, Instr.add), (1, Instr.sub), (2, Instr.or), (3, Instr.and), (4, Instr.slt)], ∀ a b d : RegIdx,
    (encode (p.2 a b d)).toNat = (a.toNat <<< 10) ||| (b.toNat <<< 7) ||| (d.toNat <<< 4) ||| p.1) ∧
  (∀ a b d : RegIdx,
    (encode (.jr a (BitVec.ofNat 6 (b.toNat * 8 + d.toNat)))).toNat =
      (a.toNat <<< 10) ||| (b.toNat <<< 7) ||| (d.toNat <<< 4) ||| 8) ∧
  (∀ p ∈ [(5, Instr.reservedFunc5), (6, Instr.reservedFunc6), (7, Instr.reservedFunc7),
          (9, Instr.reservedFunc9), (10, Instr.reservedFunc10), (11, Instr.reservedFunc11),
          (12, Instr.reservedFunc12), (13, Instr.reservedFunc13), (14, Instr.reservedFunc14),
          (15, Instr.reservedFunc15)], ∀ a b d : RegIdx,
    (encode (p.2 (BitVec.ofNat 9 (a.toNat * 64 + b.toNat * 8 + d.toNat)))).toNat =
      (a.toNat <<< 10) ||| (b.toNat <<< 7) ||| (d.toNat <<< 4) ||| p.1) ∧
  (∀ p ∈ [(1, Instr.addi), (4, Instr.lw), (5, Instr.sw), (6, Instr.jeq), (7, Instr.slti)],
    ∀ (a b : RegIdx) (i7 : Int), -64 ≤ i7 → i7 ≤ 63 →
    (encode (p.2 a b (BitVec.ofInt 7 i7))).toNat =
      (p.1 <<< 13) ||| (a.toNat <<< 10) ||| (b.toNat <<< 7) ||| (i7 % 128).toNat) ∧
  (∀ p ∈ [(2, Instr.j), (3, Instr.jal)], ∀ i13 : Imm13,
    (encode (p.2 i13)).toNat = (p.1 <<< 13) ||| i13.toNat) ∧
  encode (.addi 0 1 5) = 0x2085

/-- R71: the bits jr and the reserved function codes ignore change nothing, and outside their rows every bit is read: no
other word decodes to the instruction of such a word. -/
def Obligations.IgnoredBitsChangeNothing : Prop :=
  (∀ (w w' : Word) (s : State), w &&& 0xE00F = 0x0008 → w' &&& 0xFC0F = w &&& 0xFC0F →
    exec (decode w') s = exec (decode w) s) ∧
  (∀ (w w' : Word) (s : State), w &&& 0xE000 = 0x0000 → (w &&& 0x000F).toNat ∈ [5, 6, 7, 9, 10, 11, 12, 13, 14, 15] →
    w' &&& 0xE00F = w &&& 0xE00F → exec (decode w') s = exec (decode w) s) ∧
  ∀ w w' : Word, w &&& 0xE000 ≠ 0x0000 ∨ (w &&& 0x000F).toNat ∈ [0, 1, 2, 3, 4] →
    decode w' = decode w → w' = w

/-- R75 and R76: the word of each line of the assembler notation, and the assembly errors. -/
def Obligations.AssemblerNotationWords : Prop :=
  (∀ (cur d a b : Nat), d < 8 → a < 8 → b < 8 →
    ∀ p ∈ [(RrrOp.add, 0), (RrrOp.sub, 1), (RrrOp.or, 2), (RrrOp.and, 3), (RrrOp.slt, 4)],
      assemble cur (.rrr p.1 d a b) = some (BitVec.ofNat 16 (a * 1024 + b * 128 + d * 16 + p.2))) ∧
  (∀ cur a : Nat, a < 8 → assemble cur (.jr a) = some (BitVec.ofNat 16 (a * 1024 + 8))) ∧
  (∀ (cur x y : Nat) (imm : Int), x < 8 → y < 8 → -64 ≤ imm → imm ≤ 63 →
    assemble cur (.addi y x imm) = some (BitVec.ofNat 16 (1 * 8192 + x * 1024 + y * 128 + (imm % 128).toNat)) ∧
    assemble cur (.slti y x imm) = some (BitVec.ofNat 16 (7 * 8192 + x * 1024 + y * 128 + (imm % 128).toNat)) ∧
    assemble cur (.lw y imm x) = some (BitVec.ofNat 16 (4 * 8192 + x * 1024 + y * 128 + (imm % 128).toNat)) ∧
    assemble cur (.sw y imm x) = some (BitVec.ofNat 16 (5 * 8192 + x * 1024 + y * 128 + (imm % 128).toNat)) ∧
    assemble cur (.jeq x y imm) = some (BitVec.ofNat 16 (6 * 8192 + x * 1024 + y * 128 + (imm % 128).toNat))) ∧
  (∀ cur addr : Nat, addr < 8192 →
    assemble cur (.j addr) = some (BitVec.ofNat 16 (2 * 8192 + addr)) ∧
    assemble cur (.jal addr) = some (BitVec.ofNat 16 (3 * 8192 + addr))) ∧
  (∀ (cur a b label : Nat), label < 8192 →
    assemble cur (.jeqLabel a b label) = assemble cur (.jeq a b ((label : Int) - (cur + 1)))) ∧
  (∀ (cur a b : Nat) (off : Int), off < -64 ∨ 63 < off → assemble cur (.jeq a b off) = none) ∧
  (∀ cur : Nat, cur < 8192 → assemble cur .halt = assemble cur (.j cur)) ∧
  (∀ cur v : Nat, v < 65536 → assemble cur (.fill v) = some (BitVec.ofNat 16 v)) ∧
  ∀ cur : Nat, assemble cur .nop = some 0x0000

/-- Words written out from the encodings decode to the instructions they stand for (spec/95_test_vectors.md). -/
def Obligations.SampleWordsDecode : Prop :=
  decode 0x0530 = .add 1 2 3 ∧ decode 0x1C08 = .jr 7 0 ∧ decode 0x1FFF = .reservedFunc15 511 ∧
    decode 0x20FF = .addi 0 1 127 ∧ decode 0x4003 = .j 3 ∧ decode 0x6064 = .jal 100 ∧
    decode 0x8585 = .lw 1 3 5 ∧ decode 0xA505 = .sw 1 2 5 ∧ decode 0xC503 = .jeq 1 2 3 ∧
    decode 0xE50A = .slti 1 2 10

/-! ### Registers and program counter (spec/10_state.md) -/

/-- R23: register 0 reads 0, a write to it leaves the state as it was, and after every step it is 0, as `reg_out[0]` shows;
a step that leaves the core RUNNING forces the cell to 0. -/
def Obligations.RegisterZeroIsHardwired : Prop :=
  (∀ s : State, s.readReg 0 = 0) ∧ (∀ (s : State) (v : Word), s.writeReg 0 v = s) ∧
    ∀ s : State, ∃ t, step s = .next t ∧ t.readReg 0 = 0 ∧ (∀ a, (t.outputs a).regOut[0] = 0) ∧
      (s.regs[0] = 0 → t.regs[0] = 0) ∧ (s.run = .running → t.run = .running → t.regs[0] = 0)

/-- R83: the commit of a register write. -/
def Obligations.RegisterWriteCommit : Prop :=
  ∀ (s : State) (d : RegIdx) (v : Word),
    (d = 0 → s.writeReg d v = s) ∧
      (d ≠ 0 → (s.writeReg d v).readReg d = v ∧ (∀ r, r ≠ d → (s.writeReg d v).readReg r = s.readReg r) ∧
        s.writeReg d v = { s with regs := (s.writeReg d v).regs })

/-- R24: the table of the registers each instruction reads and writes. No other register is written; and two states that
differ in their registers alone, and agree on the registers read, take the same step but for the registers not written. -/
def Obligations.RegisterReadWriteTable : Prop :=
  (∀ (i : Instr) (s t : State), exec i s = .next t →
    ∀ r : RegIdx, some r ≠ regWritten i ∨ r = 0 → t.readReg r = s.readReg r) ∧
  (∀ (i : Instr) (s : State) (regs : Vector Word 8),
    (∀ r ∈ regsRead i, ({ s with regs := regs } : State).readReg r = s.readReg r) →
    ∃ t t', exec i s = .next t ∧ exec i { s with regs := regs } = .next t' ∧
      t'.pc = t.pc ∧ t'.mem = t.mem ∧ t'.run = t.run ∧ t'.fault = t.fault ∧
      (t.run ≠ .faulted → ∀ r : RegIdx, some r = regWritten i → t'.readReg r = t.readReg r)) ∧
  ∀ (s : State) (a : Addr) (r : RegIdx), (s.outputs a).regOut[r.toNat]'r.isLt = s.readReg r

/-- R29: the next pc of every instruction, reduced modulo 8192. -/
def Obligations.NextPcSummary : Prop :=
  ∀ (i : Instr) (s : State), ∃ t, exec i s = .next t ∧ t.pc.toNat = nextPcOf i s

/-! ### The cycle and the run state (spec/40_cycle.md, spec/10_state.md) -/

/-- While the core is RUNNING, a step executes the instruction that the word at pc decodes to, and nothing else. -/
def Obligations.StepRunsTheDecodedInstruction : Prop :=
  ∀ s : State, s.run = .running → step s = exec (decode (s.word s.pc)) s

/-- A word placed where the core fetches is what the next step executes (log entry 6). -/
def Obligations.PlacedWordIsExecuted : Prop :=
  ∀ (s : State) (w : Word),
    step (s.withFetchWord 16 w.toNat) = exec (decode w) (s.withFetchWord 16 w.toNat) ∧
      decodeTableWord 16 w.toNat = some (decode w)

/-- R77: a step happens only while the core is RUNNING, not in reset and requested. -/
def Obligations.StepOnlyWhileRunningAndRequested : Prop :=
  ∀ s : State,
    (s.run ≠ .running → step s = .next s ∧ ∀ n, core.run n s = .next s) ∧
      (s.run = .running → step s = exec (decode (s.word s.pc)) s) ∧
      ∀ inp : Inputs,
        (inp.rst = false → transact inp s = if inp.stepReq then step s else .next s) ∧
          (inp.rst = true → transact inp s = transact { inp with stepReq := false } s)

/-- R35: the run-state transitions. A step from RUNNING halts exactly for j to its own address, faults only for lw or sw
with an address out of range (and always then, but for lw to register 0), and otherwise stays RUNNING; the terminal states
stay; reset leads to RUNNING. -/
def Obligations.RunStateTransitions : Prop :=
  (∀ s : State, ∃ t, step s = .next t ∧
    (s.run = .halted → t = s) ∧ (s.run = .faulted → t = s) ∧
    (s.run = .running →
      (t.run = .halted ↔ decode (s.word s.pc) = .j s.pc) ∧
      (t.run = .faulted → ∃ cause ea, faultOf (decode (s.word s.pc)) s cause ea) ∧
      (mustFault (decode (s.word s.pc)) s → t.run = .faulted))) ∧
  ∀ (s : State) (inp : Inputs), inp.rst = true →
    ∃ t u, transact inp s = .next t ∧ transact (rstInputs false) t = .next u ∧ u.run = .running

/-- R34: the encoding of the run state on `status`; 3 never occurs; reset gives RUNNING. -/
def Obligations.StatusEncodesRunState : Prop :=
  (∀ (s : State) (a : Addr),
    ((s.outputs a).status = 0 ↔ s.run = .running) ∧ ((s.outputs a).status = 1 ↔ s.run = .halted) ∧
      ((s.outputs a).status = 2 ↔ s.run = .faulted) ∧ (s.outputs a).status ≠ 3) ∧
    (∀ s : State, s.run = .running ∨ s.run = .halted ∨ s.run = .faulted) ∧
    State.reset.run = .running ∧ ∀ s : State, s.applyReset.run = .running

/-- R89: jal, jr and a taken jeq whose target is their own address loop forever: the run never ends. -/
def Obligations.SelfJumpsOtherThanJLoopForever : Prop :=
  ∀ s : State, s.run = .running →
    (decode (s.word s.pc) = .jal s.pc ∨
      (∃ (a : RegIdx) (ignored : BitVec 6), decode (s.word s.pc) = .jr a ignored ∧
        (s.readReg a).toNat % 8192 = s.pc.toNat) ∨
      (∃ (a b : RegIdx), decode (s.word s.pc) = .jeq a b 127 ∧ s.readReg a = s.readReg b)) →
    ∀ n, ∃ t : State, core.run n s = .next t ∧ t.run = .running ∧ t.pc = s.pc

/-- The host's step limit only observes: the report is that of the state after the steps taken, and a run cut short by the
limit has not ended (R89, R130). -/
def Obligations.StepLimitReportsStateReached : Prop :=
  ∀ (n : Nat) (s : State), ∃ t : State, core.run n s = .next t ∧ runLimited n s = .next t.report ∧
    (t.report = .notEnded t ↔ t.run = .running) ∧ (t.report = .halted t ↔ t.run = .halted) ∧
    (t.report = .faulted t ↔ t.run = .faulted)

/-! ### Faults (spec/60_exceptions.md) -/

/-- R36: the fault record is written only on entry to FAULTED, with the address of the faulting instruction and the
offending address, and reset clears it. -/
def Obligations.FaultRecordWrittenOnlyOnFault : Prop :=
  (∀ s : State, ∃ t, step s = .next t ∧
    (t.fault ≠ s.fault → s.run = .running ∧ t.run = .faulted) ∧
    (s.run = .running → t.run = .faulted →
      t.fault.fpc = s.pc ∧ faultOf (decode (s.word s.pc)) s t.fault.cause t.fault.faddr.toNat)) ∧
  ∀ (s : State) (inp : Inputs) (a : Addr), inp.rst = true →
    ∃ t u, transact inp s = .next t ∧ transact (rstInputs false) t = .next u ∧
      (u.outputs a).faultCause = 0 ∧ (u.outputs a).faultPc = 0 ∧ (u.outputs a).faultAddr = 0

/-- R112: a fault is precise for registers and memory and not for pc, and nothing executes after it. -/
def Obligations.FaultIsPreciseButForPc : Prop :=
  ∀ s : State, s.run = .running → ∃ t, step s = .next t ∧
    (t.run = .faulted →
      WritesNothing s t ∧ t.pc.toNat = nextAddr s ∧ t.fault.fpc = s.pc ∧ ∀ n, core.run n t = .next t)

/-- R108: the fault causes, their codes, which instructions raise them and what they record; causes 3, 4 and 5 are raised by
no step. -/
def Obligations.FaultCausesAndCodes : Prop :=
  FaultCause.none.code = 0 ∧ FaultCause.loadAddrOutOfRange.code = 1 ∧ FaultCause.storeAddrOutOfRange.code = 2 ∧
  FaultCause.fetchAddrOutOfRange.code = 3 ∧ FaultCause.regIndexOutOfRange.code = 4 ∧
  FaultCause.unclassified.code = 5 ∧ (∀ c : FaultCause, c.code.toNat < 6) ∧
  ∀ s : State, s.run = .running → ∃ t, step s = .next t ∧
    (mustFault (decode (s.word s.pc)) s → t.run = .faulted) ∧
    (t.run = .faulted → t.fault.fpc = s.pc ∧ s.params.lsAddrBits = .bits14 ∧
      faultOf (decode (s.word s.pc)) s t.fault.cause t.fault.faddr.toNat)

/-- R109: with the 13-bit width no step faults and FAULTED is unreachable; with the 14-bit width causes 1 and 2 are
reachable from reset with some memory, and only by lw and sw. -/
def Obligations.FaultReachability : Prop :=
  (∀ s : State, s.params.lsAddrBits = .bits13 → s.run ≠ .faulted →
    ∀ n, ∃ t : State, core.run n s = .next t ∧ t.run ≠ .faulted) ∧
  (∃ (memInit : Addr → Word) (n : Nat) (t : State),
    core.run n (State.afterReset { lsAddrBits := .bits14 } memInit) = .next t ∧
      t.run = .faulted ∧ t.fault.cause = .loadAddrOutOfRange) ∧
  (∃ (memInit : Addr → Word) (n : Nat) (t : State),
    core.run n (State.afterReset { lsAddrBits := .bits14 } memInit) = .next t ∧
      t.run = .faulted ∧ t.fault.cause = .storeAddrOutOfRange) ∧
  ∀ s t : State, s.run = .running → step s = .next t → t.run = .faulted →
    ∃ (r x : RegIdx) (imm : Imm7), decode (s.word s.pc) = .lw r x imm ∨ decode (s.word s.pc) = .sw r x imm

/-! ### Invariants -/

/-- Every step keeps the invariant of the core, from every state that has it. -/
def Obligations.EveryStepKeepsInvariant : Prop :=
  ∀ s : State, s.Inv → ∃ t, step s = .next t ∧ t.Inv

/-- The invariant holds when reset is released, for any parameters and any `MEM_INIT`, and at the model's own reset state (the
memory of the latter is the model's choice, log entry 2; that a transaction in reset shows the reset values, log entry 7). -/
def Obligations.ResetEstablishesInvariant : Prop :=
  State.reset.Inv ∧ (∀ (params : Params) (memInit : Addr → Word), (State.afterReset params memInit).Inv) ∧
    ∀ (s : State) (inp : Inputs), inp.rst = true → s.mem.wf = true → ∃ t, transact inp s = .next t ∧ t.Inv

/-- The parameters of the hardware never change, over any transactions of the host. -/
def Obligations.ParametersNeverChange : Prop :=
  ∀ (inputs : List Inputs) (s : State), ∃ t, transactAll inputs s = .next t ∧ t.params = s.params

/-! ### Reset and the host (spec/70_reset_and_hazards.md, spec/10_state.md) -/

/-- R123: held in reset the core executes no step, requested or not; on release pc is 0, the registers are 0, it is RUNNING
with the fault record clear, and memory is as the host left it. -/
def Obligations.ResetState : Prop :=
  (∀ (s : State) (inp : Inputs), inp.rst = true →
    ∃ t u, transact inp s = .next t ∧ transact { inp with stepReq := false } s = .next t ∧
      transact (rstInputs false) t = .next u ∧
      u.pc = 0 ∧ (∀ r, u.readReg r = 0) ∧ u.run = .running ∧ u.fault = FaultRecord.clear ∧
      u.params = s.params ∧
      ∀ a, u.word a = if inp.ldWe = true ∧ a = inp.ldAddr then inp.ldData else s.word a) ∧
  ∀ (params : Params) (memInit : Addr → Word),
    (State.afterReset params memInit).pc = 0 ∧ (∀ r, (State.afterReset params memInit).readReg r = 0) ∧
    (State.afterReset params memInit).run = .running ∧
    (State.afterReset params memInit).fault = FaultRecord.clear ∧
    ∀ a, (State.afterReset params memInit).word a = memInit a

/-- R27 and R31: the model's reset state has every register 0 and pc 0. -/
def Obligations.ResetRegistersAndPcAreZero : Prop :=
  (∀ r : RegIdx, State.reset.readReg r = 0) ∧ State.reset.regs = Vector.replicate 8 0 ∧ State.reset.pc = 0

/-- The boot order leaves the image in memory from address 0 on and every other word as it was, the core RUNNING at pc 0; an
image beyond capacity starts no run (R125, R126). -/
def Obligations.BootLoadsImage : Prop :=
  ∀ (image : List Word) (s : State),
    if 8192 < image.length then boot image s = none
    else ∃ t, boot image s = some (.next t) ∧ t.pc = 0 ∧ (∀ r, t.readReg r = 0) ∧ t.run = .running ∧
      t.fault = FaultRecord.clear ∧
      ∀ a : Addr, t.word a = (image[a.toNat]?).getD (s.word a)

/-- What the host reads between steps is the state (R40, R41). -/
def Obligations.ObservationShowsState : Prop :=
  ∀ (s : State) (a : Addr),
    (s.outputs a).obsData = s.word a ∧ (s.outputs a).status = s.run.status ∧ (s.outputs a).pcOut = s.pc ∧
      (∀ r : RegIdx, (s.outputs a).regOut[r.toNat]'r.isLt = s.readReg r) ∧
      (s.outputs a).faultCause = s.fault.cause.code ∧ (s.outputs a).faultPc = s.fault.fpc ∧
      (s.outputs a).faultAddr = s.fault.faddr
end

