-- ==== Sys2Proof/Laws/Encoding.lean ====
section
/-! SUPPORT. The fields of a word and the encodings of the formats as numbers: the arithmetic by which decoding and
encoding are compared. -/

namespace Sys2Proof

/-! ### The fields of a word, as numbers -/

theorem opcodeField_toNat (w : Word) : (opcodeField w).toNat = w.toNat / 8192 % 8 := by
  simp [opcodeField, BitVec.extractLsb'_toNat, Nat.shiftRight_eq_div_pow]

theorem fieldA_toNat (w : Word) : (fieldA w).toNat = w.toNat / 1024 % 8 := by
  simp [fieldA, BitVec.extractLsb'_toNat, Nat.shiftRight_eq_div_pow]

theorem fieldB_toNat (w : Word) : (fieldB w).toNat = w.toNat / 128 % 8 := by
  simp [fieldB, BitVec.extractLsb'_toNat, Nat.shiftRight_eq_div_pow]

theorem fieldD_toNat (w : Word) : (fieldD w).toNat = w.toNat / 16 % 8 := by
  simp [fieldD, BitVec.extractLsb'_toNat, Nat.shiftRight_eq_div_pow]

theorem funcField_toNat (w : Word) : (funcField w).toNat = w.toNat % 16 := by
  simp [funcField, BitVec.extractLsb'_toNat]

theorem jrIgnored_toNat (w : Word) : (jrIgnored w).toNat = w.toNat / 16 % 64 := by
  simp [jrIgnored, BitVec.extractLsb'_toNat, Nat.shiftRight_eq_div_pow]

theorem reservedIgnored_toNat (w : Word) : (reservedIgnored w).toNat = w.toNat / 16 % 512 := by
  simp [reservedIgnored, BitVec.extractLsb'_toNat, Nat.shiftRight_eq_div_pow]

theorem imm7Field_toNat (w : Word) : (imm7Field w).toNat = w.toNat % 128 := by
  simp [imm7Field, BitVec.extractLsb'_toNat]

theorem imm13Field_toNat (w : Word) : (imm13Field w).toNat = w.toNat % 8192 := by
  simp [imm13Field, BitVec.extractLsb'_toNat]

/-! ### The formats, as numbers -/

/-- Joining a high part and a low part by or is adding them, where the low part fits below the shift. -/
theorem shiftLeft_or_eq {hi lo k : Nat} (h : lo < 2 ^ k) : hi <<< k ||| lo = hi * 2 ^ k + lo := by
  rw [← Nat.shiftLeft_add_eq_or_of_lt h, Nat.shiftLeft_eq]

/-- A field shifted to its place, where it fits in the word. -/
theorem shifted_toNat {n k : Nat} (v : BitVec n) (h : n + k ≤ 16) :
    (v.setWidth 16 <<< k).toNat = v.toNat <<< k := by
  have hv := v.isLt
  have hn : v.toNat < 2 ^ 16 := lt_of_lt_of_le hv (Nat.pow_le_pow_right (by omega) (by omega))
  have hk : v.toNat <<< k < 2 ^ 16 := by
    rw [Nat.shiftLeft_eq]
    calc v.toNat * 2 ^ k < 2 ^ n * 2 ^ k := Nat.mul_lt_mul_of_pos_right hv (by positivity)
      _ = 2 ^ (n + k) := by rw [Nat.pow_add]
      _ ≤ 2 ^ 16 := Nat.pow_le_pow_right (by omega) h
  rw [BitVec.toNat_shiftLeft, BitVec.toNat_setWidth, Nat.mod_eq_of_lt hn, Nat.mod_eq_of_lt hk]

theorem widened_toNat {n : Nat} (v : BitVec n) (h : n ≤ 16) : (v.setWidth 16).toNat = v.toNat := by
  rw [BitVec.toNat_setWidth, Nat.mod_eq_of_lt (lt_of_lt_of_le v.isLt (Nat.pow_le_pow_right (by omega) h))]

/-- The equation of format RRR in the shifts of R74. -/
theorem encodeRrr_shifts (a b d : RegIdx) (f : BitVec 4) :
    (encodeRrr a b d f).toNat = (a.toNat <<< 10) ||| (b.toNat <<< 7) ||| (d.toNat <<< 4) ||| f.toNat := by
  simp only [encodeRrr, BitVec.toNat_or, shifted_toNat a (by omega : 3 + 10 ≤ 16),
    shifted_toNat b (by omega : 3 + 7 ≤ 16), shifted_toNat d (by omega : 3 + 4 ≤ 16), widened_toNat f (by omega)]

theorem encodeRrr_toNat (a b d : RegIdx) (f : BitVec 4) :
    (encodeRrr a b d f).toNat = a.toNat * 1024 + b.toNat * 128 + d.toNat * 16 + f.toNat := by
  have ha := a.isLt
  have hb := b.isLt
  have hd := d.isLt
  have hf := f.isLt
  rw [encodeRrr_shifts, Nat.or_assoc, Nat.or_assoc, shiftLeft_or_eq (hi := d.toNat) hf,
    shiftLeft_or_eq (hi := b.toNat) (by omega), shiftLeft_or_eq (hi := a.toNat) (by omega)]
  omega

theorem encodeJr_toNat (a : RegIdx) (x : BitVec 6) :
    (encodeJr a x).toNat = a.toNat * 1024 + x.toNat * 16 + 8 := by
  have ha := a.isLt
  have hx := x.isLt
  simp only [encodeJr, BitVec.toNat_or, shifted_toNat a (by omega : 3 + 10 ≤ 16),
    shifted_toNat x (by omega : 6 + 4 ≤ 16), BitVec.toNat_ofNat]
  rw [Nat.or_assoc, shiftLeft_or_eq (hi := x.toNat) (by omega), shiftLeft_or_eq (hi := a.toNat) (by omega)]
  omega

theorem encodeReserved_toNat (x : BitVec 9) (f : BitVec 4) :
    (encodeReserved x f).toNat = x.toNat * 16 + f.toNat := by
  have hf := f.isLt
  simp only [encodeReserved, BitVec.toNat_or, shifted_toNat x (by omega : 9 + 4 ≤ 16),
    widened_toNat f (by omega)]
  exact shiftLeft_or_eq hf

/-- The equation of format RRI in the shifts of R74. -/
theorem encodeRri_shifts (op : BitVec 3) (a b : RegIdx) (i : Imm7) :
    (encodeRri op a b i).toNat = (op.toNat <<< 13) ||| (a.toNat <<< 10) ||| (b.toNat <<< 7) ||| i.toNat := by
  simp only [encodeRri, BitVec.toNat_or, shifted_toNat op (by omega : 3 + 13 ≤ 16), shifted_toNat a (by omega : 3 + 10 ≤ 16),
    shifted_toNat b (by omega : 3 + 7 ≤ 16), widened_toNat i (by omega)]

theorem encodeRri_toNat (op : BitVec 3) (a b : RegIdx) (i : Imm7) :
    (encodeRri op a b i).toNat = op.toNat * 8192 + a.toNat * 1024 + b.toNat * 128 + i.toNat := by
  have ha := a.isLt
  have hb := b.isLt
  have hi := i.isLt
  rw [encodeRri_shifts, Nat.or_assoc, Nat.or_assoc, shiftLeft_or_eq (hi := b.toNat) hi,
    shiftLeft_or_eq (hi := a.toNat) (by omega), shiftLeft_or_eq (hi := op.toNat) (by omega)]
  omega

/-- The equation of format J in the shifts of R74. -/
theorem encodeJ_shifts (op : BitVec 3) (i : Imm13) : (encodeJ op i).toNat = (op.toNat <<< 13) ||| i.toNat := by
  simp only [encodeJ, BitVec.toNat_or, shifted_toNat op (by omega : 3 + 13 ≤ 16), widened_toNat i (by omega)]

theorem encodeJ_toNat (op : BitVec 3) (i : Imm13) : (encodeJ op i).toNat = op.toNat * 8192 + i.toNat := by
  rw [encodeJ_shifts]
  exact shiftLeft_or_eq i.isLt

end Sys2Proof
end

