-- ==== Sys2Proof/Laws/State.lean ====
section
/-! SUPPORT. One lemma per field per update of the state, so that no later proof unfolds a record update. -/

namespace Sys2Proof.Machine

/-! ### writeReg -/

@[simp] theorem State.writeReg_pc (s : State) (d : RegIdx) (v : Word) : (s.writeReg d v).pc = s.pc := by
  unfold State.writeReg; split <;> rfl
@[simp] theorem State.writeReg_mem (s : State) (d : RegIdx) (v : Word) : (s.writeReg d v).mem = s.mem := by
  unfold State.writeReg; split <;> rfl
@[simp] theorem State.writeReg_run (s : State) (d : RegIdx) (v : Word) : (s.writeReg d v).run = s.run := by
  unfold State.writeReg; split <;> rfl
@[simp] theorem State.writeReg_fault (s : State) (d : RegIdx) (v : Word) : (s.writeReg d v).fault = s.fault := by
  unfold State.writeReg; split <;> rfl
@[simp] theorem State.writeReg_params (s : State) (d : RegIdx) (v : Word) : (s.writeReg d v).params = s.params := by
  unfold State.writeReg; split <;> rfl
@[simp] theorem State.writeReg_freeCount (s : State) (d : RegIdx) (v : Word) : (s.writeReg d v).freeCount = s.freeCount := by
  unfold State.writeReg; split <;> rfl

/-! ### postExecute -/

@[simp] theorem State.postExecute_pc (s : State) (t : Int) : (s.postExecute t).pc = Addr.ofExact t := rfl
@[simp] theorem State.postExecute_regs (s : State) (t : Int) : (s.postExecute t).regs = s.regs.set 0 0 := rfl
@[simp] theorem State.postExecute_mem (s : State) (t : Int) : (s.postExecute t).mem = s.mem := rfl
@[simp] theorem State.postExecute_run (s : State) (t : Int) : (s.postExecute t).run = s.run := rfl
@[simp] theorem State.postExecute_fault (s : State) (t : Int) : (s.postExecute t).fault = s.fault := rfl
@[simp] theorem State.postExecute_params (s : State) (t : Int) : (s.postExecute t).params = s.params := rfl
@[simp] theorem State.postExecute_freeCount (s : State) (t : Int) : (s.postExecute t).freeCount = s.freeCount := rfl

/-! ### advance -/

@[simp] theorem State.advance_pc (s : State) : (s.advance).pc = Addr.ofExact s.npc.toNat := rfl
@[simp] theorem State.advance_regs (s : State) : (s.advance).regs = s.regs.set 0 0 := rfl
@[simp] theorem State.advance_mem (s : State) : (s.advance).mem = s.mem := rfl
@[simp] theorem State.advance_run (s : State) : (s.advance).run = s.run := rfl
@[simp] theorem State.advance_fault (s : State) : (s.advance).fault = s.fault := rfl
@[simp] theorem State.advance_params (s : State) : (s.advance).params = s.params := rfl
@[simp] theorem State.advance_freeCount (s : State) : (s.advance).freeCount = s.freeCount := rfl

/-! ### halt -/

@[simp] theorem State.halt_pc (s : State) : (s.halt).pc = s.pc := rfl
@[simp] theorem State.halt_regs (s : State) : (s.halt).regs = s.regs := rfl
@[simp] theorem State.halt_mem (s : State) : (s.halt).mem = s.mem := rfl
@[simp] theorem State.halt_run (s : State) : (s.halt).run = .halted := rfl
@[simp] theorem State.halt_fault (s : State) : (s.halt).fault = s.fault := rfl
@[simp] theorem State.halt_params (s : State) : (s.halt).params = s.params := rfl
@[simp] theorem State.halt_freeCount (s : State) : (s.halt).freeCount = s.freeCount := rfl

/-! ### takeFault -/

@[simp] theorem State.takeFault_pc (s : State) (c : FaultCause) (f : BitVec 14) : (s.takeFault c f).pc = s.npc := rfl
@[simp] theorem State.takeFault_regs (s : State) (c : FaultCause) (f : BitVec 14) : (s.takeFault c f).regs = s.regs := rfl
@[simp] theorem State.takeFault_mem (s : State) (c : FaultCause) (f : BitVec 14) : (s.takeFault c f).mem = s.mem := rfl
@[simp] theorem State.takeFault_run (s : State) (c : FaultCause) (f : BitVec 14) : (s.takeFault c f).run = .faulted := rfl
@[simp] theorem State.takeFault_fault (s : State) (c : FaultCause) (f : BitVec 14) : (s.takeFault c f).fault = { cause := c, fpc := s.pc, faddr := f } := rfl
@[simp] theorem State.takeFault_params (s : State) (c : FaultCause) (f : BitVec 14) : (s.takeFault c f).params = s.params := rfl
@[simp] theorem State.takeFault_freeCount (s : State) (c : FaultCause) (f : BitVec 14) : (s.takeFault c f).freeCount = s.freeCount := rfl

/-! ### drawFree -/

@[simp] theorem State.drawFree_pc (s : State) : (s.drawFree).pc = s.pc := rfl
@[simp] theorem State.drawFree_regs (s : State) : (s.drawFree).regs = s.regs := rfl
@[simp] theorem State.drawFree_mem (s : State) : (s.drawFree).mem = s.mem := rfl
@[simp] theorem State.drawFree_run (s : State) : (s.drawFree).run = s.run := rfl
@[simp] theorem State.drawFree_fault (s : State) : (s.drawFree).fault = s.fault := rfl
@[simp] theorem State.drawFree_params (s : State) : (s.drawFree).params = s.params := rfl
@[simp] theorem State.drawFree_freeCount (s : State) : (s.drawFree).freeCount = s.freeCount + 1 := rfl

/-! ### applyReset -/

@[simp] theorem State.applyReset_pc (s : State) : (s.applyReset).pc = 0 := rfl
@[simp] theorem State.applyReset_regs (s : State) : (s.applyReset).regs = Vector.replicate 8 0 := rfl
@[simp] theorem State.applyReset_mem (s : State) : (s.applyReset).mem = s.mem := rfl
@[simp] theorem State.applyReset_run (s : State) : (s.applyReset).run = .running := rfl
@[simp] theorem State.applyReset_fault (s : State) : (s.applyReset).fault = FaultRecord.clear := rfl
@[simp] theorem State.applyReset_params (s : State) : (s.applyReset).params = s.params := rfl
@[simp] theorem State.applyReset_freeCount (s : State) : (s.applyReset).freeCount = s.freeCount := rfl

/-! ### loadWord -/

@[simp] theorem State.loadWord_pc (s : State) (a : Addr) (v : Word) : (s.loadWord a v).pc = s.pc := rfl
@[simp] theorem State.loadWord_regs (s : State) (a : Addr) (v : Word) : (s.loadWord a v).regs = s.regs := rfl
@[simp] theorem State.loadWord_mem (s : State) (a : Addr) (v : Word) : (s.loadWord a v).mem = s.mem.set a.toNat v := rfl
@[simp] theorem State.loadWord_run (s : State) (a : Addr) (v : Word) : (s.loadWord a v).run = s.run := rfl
@[simp] theorem State.loadWord_fault (s : State) (a : Addr) (v : Word) : (s.loadWord a v).fault = s.fault := rfl
@[simp] theorem State.loadWord_params (s : State) (a : Addr) (v : Word) : (s.loadWord a v).params = s.params := rfl
@[simp] theorem State.loadWord_freeCount (s : State) (a : Addr) (v : Word) : (s.loadWord a v).freeCount = s.freeCount := rfl

/-! ### withFetchWord -/

@[simp] theorem State.withFetchWord_pc (s : State) (n w : Nat) : (s.withFetchWord n w).pc = s.pc := rfl
@[simp] theorem State.withFetchWord_regs (s : State) (n w : Nat) : (s.withFetchWord n w).regs = s.regs := rfl
@[simp] theorem State.withFetchWord_mem (s : State) (n w : Nat) : (s.withFetchWord n w).mem = s.mem.set s.pc.toNat (BitVec.ofNat 16 (w % 2 ^ n)) := rfl
@[simp] theorem State.withFetchWord_run (s : State) (n w : Nat) : (s.withFetchWord n w).run = .running := rfl
@[simp] theorem State.withFetchWord_fault (s : State) (n w : Nat) : (s.withFetchWord n w).fault = s.fault := rfl
@[simp] theorem State.withFetchWord_params (s : State) (n w : Nat) : (s.withFetchWord n w).params = s.params := rfl
@[simp] theorem State.withFetchWord_freeCount (s : State) (n w : Nat) : (s.withFetchWord n w).freeCount = s.freeCount := rfl

/-! ### afterReset -/

@[simp] theorem State.afterReset_pc (p : Params) (m : Addr → Word) : (State.afterReset p m).pc = 0 := rfl
@[simp] theorem State.afterReset_regs (p : Params) (m : Addr → Word) : (State.afterReset p m).regs = Vector.replicate 8 0 := rfl
@[simp] theorem State.afterReset_mem (p : Params) (m : Addr → Word) : (State.afterReset p m).mem = Memory.ofInit m := by
  simp only [State.afterReset]
@[simp] theorem State.afterReset_run (p : Params) (m : Addr → Word) : (State.afterReset p m).run = .running := rfl
@[simp] theorem State.afterReset_fault (p : Params) (m : Addr → Word) : (State.afterReset p m).fault = FaultRecord.clear := rfl
@[simp] theorem State.afterReset_params (p : Params) (m : Addr → Word) : (State.afterReset p m).params = p := rfl
@[simp] theorem State.afterReset_freeCount (p : Params) (m : Addr → Word) : (State.afterReset p m).freeCount = 0 := rfl

end Sys2Proof.Machine
end

