-- ==== Sys2Proof/Laws/Memory.lean ====
section
/-! SUPPORT. The laws of the memory list: what a read gives after a write, and that every operation keeps the canonical form
`Memory.wf`. -/

namespace Sys2Proof.Machine

@[simp] theorem Memory.get_nil (a : Nat) : Memory.get [] a = unlistedWord := rfl

theorem Memory.get_cons (c : Nat × Word) (m : Memory) (a : Nat) :
    Memory.get (c :: m) a = if c.1 = a then c.2 else m.get a := rfl

/-- Placing an entry at an address the list does not hold adds that entry and changes no other read. -/
theorem Memory.get_place (c : Nat × Word) (m : Memory) (b : Nat) (absent : ∀ d ∈ m, d.1 ≠ c.1) :
    (Memory.place c m).get b = if c.1 = b then c.2 else m.get b := by
  induction m with
  | nil => rfl
  | cons d rest ih =>
    have hd : d.1 ≠ c.1 := absent d (by simp)
    have hr := ih fun e he => absent e (by simp [he])
    unfold Memory.place
    split
    · rfl
    · simp only [Memory.get_cons, hr]
      by_cases h1 : d.1 = b <;> by_cases h2 : c.1 = b <;> simp [h1, h2]
      omega

/-- Dropping the entries of an address makes it read as unlisted and changes no other read. -/
theorem Memory.get_filter (m : Memory) (a b : Nat) :
    Memory.get (m.filter fun c => decide (c.1 ≠ a)) b = if a = b then unlistedWord else m.get b := by
  induction m with
  | nil => simp
  | cons c rest ih =>
    by_cases hc : c.1 = a
    · simp only [hc, ne_eq, not_true_eq_false, decide_false, Bool.false_eq_true, not_false_eq_true,
        List.filter_cons_of_neg, ih, Memory.get_cons]
      by_cases h : a = b <;> simp [h]
    · simp only [ne_eq, hc, not_false_eq_true, decide_true, List.filter_cons_of_pos, Memory.get_cons, ih]
      by_cases h1 : c.1 = b <;> by_cases h2 : a = b <;> simp [h1, h2]
      omega

/-- All a write does: the address written reads as the value, every other address reads as before. -/
theorem Memory.get_set (m : Memory) (a b : Nat) (v : Word) :
    (m.set a v).get b = if a = b then v else m.get b := by
  unfold Memory.set
  split
  · rename_i h
    rw [Memory.get_filter]
    simp [h]
  · rw [Memory.get_place, Memory.get_filter]
    · by_cases h : a = b <;> simp [h]
    · simp

@[simp] theorem Memory.get_set_same (m : Memory) (a : Nat) (v : Word) : (m.set a v).get a = v := by
  simp [Memory.get_set]

theorem Memory.get_set_other (m : Memory) {a b : Nat} (v : Word) (h : a ≠ b) :
    (m.set a v).get b = m.get b := by
  simp [Memory.get_set, h]

/-! ### The canonical form -/

theorem Memory.risesFrom_le {m : Memory} {j k : Nat} (h : m.risesFrom k) (hj : j ≤ k) : m.risesFrom j := by
  cases m with
  | nil => rfl
  | cons c rest =>
    simp only [Memory.risesFrom, Bool.and_eq_true, decide_eq_true_eq] at h ⊢
    exact ⟨by omega, h.2⟩

theorem Memory.risesFrom_filter (p : Nat × Word → Bool) {m : Memory} {k : Nat} (h : m.risesFrom k) :
    Memory.risesFrom k (m.filter p) := by
  induction m generalizing k with
  | nil => rfl
  | cons c rest ih =>
    simp only [Memory.risesFrom, Bool.and_eq_true, decide_eq_true_eq] at h
    rw [List.filter_cons]
    split
    · simp only [Memory.risesFrom, Bool.and_eq_true, decide_eq_true_eq]
      exact ⟨h.1, ih h.2⟩
    · exact Memory.risesFrom_le (ih h.2) (by omega)

theorem Memory.risesFrom_place (c : Nat × Word) {m : Memory} {k : Nat} (h : m.risesFrom k) (hk : k ≤ c.1)
    (absent : ∀ d ∈ m, d.1 ≠ c.1) : (Memory.place c m).risesFrom k := by
  induction m generalizing k with
  | nil => simp [Memory.place, Memory.risesFrom, hk]
  | cons d rest ih =>
    have hd : d.1 ≠ c.1 := absent d (by simp)
    simp only [Memory.risesFrom, Bool.and_eq_true, decide_eq_true_eq] at h
    unfold Memory.place
    split
    · simp only [Memory.risesFrom, Bool.and_eq_true, decide_eq_true_eq]
      exact ⟨hk, by omega, h.2⟩
    · simp only [Memory.risesFrom, Bool.and_eq_true, decide_eq_true_eq]
      exact ⟨h.1, ih h.2 (by omega) fun e he => absent e (by simp [he])⟩

theorem Memory.mem_place {c d : Nat × Word} {m : Memory} (h : d ∈ Memory.place c m) : d = c ∨ d ∈ m := by
  induction m with
  | nil => simpa [Memory.place] using h
  | cons e rest ih =>
    unfold Memory.place at h
    split at h
    · simpa using h
    · rcases List.mem_cons.1 h with h | h
      · simp [h]
      · rcases ih h with h | h <;> simp [h]

theorem Memory.wf_iff (m : Memory) :
    m.wf = true ↔ m.risesFrom 0 = true ∧ ∀ c ∈ m, c.1 < memWords ∧ c.2 ≠ unlistedWord := by
  simp [Memory.wf]

/-- A write inside the address space keeps the canonical form. -/
theorem Memory.wf_set {m : Memory} {a : Nat} (h : m.wf = true) (ha : a < memWords) (v : Word) :
    (m.set a v).wf = true := by
  rw [Memory.wf_iff] at h ⊢
  have hr := Memory.risesFrom_filter (fun c => decide (c.1 ≠ a)) h.1
  have hm : ∀ c ∈ m.filter (fun c => decide (c.1 ≠ a)), c.1 < memWords ∧ c.2 ≠ unlistedWord :=
    fun c hc => h.2 c (List.mem_filter.1 hc).1
  unfold Memory.set
  split
  · exact ⟨hr, hm⟩
  · rename_i hv
    refine ⟨Memory.risesFrom_place _ hr (by simp) (by simp), fun c hc => ?_⟩
    rcases Memory.mem_place hc with rfl | hc
    · exact ⟨ha, hv⟩
    · exact hm c hc

/-- The memory right after the model's reset has the canonical form. -/
theorem State.reset_mem_wf : State.reset.mem.wf = true := rfl

/-- The entries that `MEM_INIT` lists from a range of addresses. -/
theorem Memory.get_filterMap_range' (f : Nat → Word) (n k a : Nat) :
    Memory.get ((List.range' k n).filterMap fun b => if f b = unlistedWord then none else some (b, f b)) a
      = if k ≤ a ∧ a < k + n then f a else unlistedWord := by
  induction n generalizing k with
  | zero => simp
  | succ n ih =>
    rw [List.range'_succ, List.filterMap_cons]
    by_cases hf : f k = unlistedWord
    · simp only [hf, if_true, ih]
      by_cases hk : a = k
      · subst hk; simp [hf]
      · have : (k + 1 ≤ a ∧ a < k + 1 + n) ↔ (k ≤ a ∧ a < k + (n + 1)) := by omega
        simp only [this]
    · simp only [hf, if_false, Memory.get_cons, ih]
      by_cases hk : k = a
      · subst hk; simp
      · have : (k + 1 ≤ a ∧ a < k + 1 + n) ↔ (k ≤ a ∧ a < k + (n + 1)) := by omega
        simp only [this, hk, if_false]

theorem Memory.rises_filterMap_range' (f : Nat → Word) (n k : Nat) :
    Memory.risesFrom k
      ((List.range' k n).filterMap fun b => if f b = unlistedWord then none else some (b, f b)) = true := by
  induction n generalizing k with
  | zero => rfl
  | succ n ih =>
    rw [List.range'_succ, List.filterMap_cons]
    by_cases hf : f k = unlistedWord
    · simp only [hf, if_true]
      exact Memory.risesFrom_le (ih (k + 1)) (by omega)
    · simp only [hf, if_false, Memory.risesFrom, ih, le_refl, decide_true, Bool.and_self]

/-- Every `MEM_INIT` is the contents of a memory: each address reads as it says. -/
theorem Memory.get_ofInit (memInit : Addr → Word) (a : Addr) : (Memory.ofInit memInit).get a.toNat = memInit a := by
  unfold Memory.ofInit
  rw [List.range_eq_range', Memory.get_filterMap_range' fun b => memInit (BitVec.ofNat 13 b)]
  have : a.toNat < memWords := a.isLt
  simp [this]

theorem Memory.wf_ofInit (memInit : Addr → Word) : (Memory.ofInit memInit).wf = true := by
  rw [Memory.wf_iff]
  unfold Memory.ofInit
  refine ⟨?_, ?_⟩
  · rw [List.range_eq_range']
    exact Memory.rises_filterMap_range' (fun b => memInit (BitVec.ofNat 13 b)) _ 0
  · rintro c hc
    obtain ⟨b, hb, h⟩ := List.mem_filterMap.1 hc
    split at h
    · cases h
    · rename_i hne
      obtain rfl := Option.some.inj h
      exact ⟨by simpa using hb, hne⟩

end Sys2Proof.Machine
end

