-- ==== Sys2Proof/Laws/Ops.lean ====
section
/-! SUPPORT. For each shared operation, once, what it can do: registers, words of memory, the next pc, the ends of a step and
the fetch. Later proofs cite these instead of unfolding the operations. -/

namespace Sys2Proof.Machine

/-! ### Narrowing -/

theorem Word.ofExact_toNat (v : Int) : (Word.ofExact v).toNat = (v % 65536).toNat := by
  simp [Word.ofExact, BitVec.toNat_ofInt]

theorem Addr.ofExact_toNat (t : Int) : (Addr.ofExact t).toNat = (t % 8192).toNat := by
  simp [Addr.ofExact, BitVec.toNat_ofInt]

theorem Addr.ofExact_toNat_natCast (n : Nat) : (Addr.ofExact (n : Int)).toNat = n % 8192 := by
  rw [Addr.ofExact_toNat]
  omega

@[simp] theorem Addr.ofExact_of_addr (a : Addr) : Addr.ofExact (a.toNat : Int) = a := by
  apply BitVec.eq_of_toNat_eq
  rw [Addr.ofExact_toNat_natCast]
  exact Nat.mod_eq_of_lt a.isLt

theorem State.npc_toNat (s : State) : s.npc.toNat = nextAddr s := by
  unfold State.npc nextAddr
  rw [← Nat.cast_succ, Addr.ofExact_toNat_natCast]

/-! ### Registers -/

@[simp] theorem State.readReg_zero (s : State) : s.readReg 0 = 0 := rfl

/-- A register of a state depends on the register file alone. -/
theorem State.readReg_congr {s t : State} (h : t.regs = s.regs) (r : RegIdx) : t.readReg r = s.readReg r := by
  simp [State.readReg, h]

theorem State.readReg_of_ne {r : RegIdx} (s : State) (h : r ≠ 0) : s.readReg r = s.regs[r.toNat]'r.isLt :=
  if_neg h

theorem State.writeReg_zero (s : State) (v : Word) : s.writeReg 0 v = s := rfl

theorem State.writeReg_of_ne {d : RegIdx} (s : State) (v : Word) (h : d ≠ 0) :
    s.writeReg d v = { s with regs := s.regs.set d.toNat v d.isLt } :=
  if_neg h

theorem RegIdx.toNat_ne {r d : RegIdx} (h : r ≠ d) : r.toNat ≠ d.toNat := fun e => h (BitVec.eq_of_toNat_eq e)

/-- What a register reads after a write. -/
theorem State.readReg_writeReg (s : State) (d r : RegIdx) (v : Word) :
    (s.writeReg d v).readReg r = if r = 0 then 0 else if r = d then v else s.readReg r := by
  by_cases hr : r = 0
  · rw [if_pos hr, hr, State.readReg_zero]
  · rw [if_neg hr, State.readReg_of_ne _ hr]
    by_cases hd : d = 0
    · subst hd
      rw [if_neg hr, s.readReg_of_ne hr]
      rfl
    · simp only [s.writeReg_of_ne v hd, Vector.getElem_set]
      by_cases h : r = d
      · subst h; rw [if_pos rfl, if_pos rfl]
      · rw [if_neg h, if_neg (RegIdx.toNat_ne (Ne.symm h)), s.readReg_of_ne hr]

/-- Clearing the cell R[0] changes what no register reads. -/
theorem State.readReg_postExecute (s : State) (t : Int) (r : RegIdx) :
    (s.postExecute t).readReg r = s.readReg r := by
  by_cases hr : r = 0
  · subst hr; rfl
  · have : 0 ≠ r.toNat := (RegIdx.toNat_ne hr).symm
    rw [State.readReg_of_ne _ hr, State.readReg_of_ne _ hr]
    simp only [State.postExecute_regs, Vector.getElem_set, if_neg this]

@[simp] theorem State.readReg_halt (s : State) (r : RegIdx) : s.halt.readReg r = s.readReg r := rfl

@[simp] theorem State.readReg_takeFault (s : State) (c : FaultCause) (f : BitVec 14) (r : RegIdx) :
    (s.takeFault c f).readReg r = s.readReg r := rfl

@[simp] theorem State.readReg_drawFree (s : State) (r : RegIdx) : s.drawFree.readReg r = s.readReg r := rfl

theorem State.readReg_advance (s : State) (r : RegIdx) : s.advance.readReg r = s.readReg r :=
  s.readReg_postExecute _ r

/-! ### Words of memory -/

@[simp] theorem State.word_writeReg (s : State) (d : RegIdx) (v : Word) (a : Addr) :
    (s.writeReg d v).word a = s.word a := by
  simp [State.word]

@[simp] theorem State.word_postExecute (s : State) (t : Int) (a : Addr) : (s.postExecute t).word a = s.word a := rfl

@[simp] theorem State.word_advance (s : State) (a : Addr) : s.advance.word a = s.word a := rfl

@[simp] theorem State.word_halt (s : State) (a : Addr) : s.halt.word a = s.word a := rfl

@[simp] theorem State.word_takeFault (s : State) (c : FaultCause) (f : BitVec 14) (a : Addr) :
    (s.takeFault c f).word a = s.word a := rfl

@[simp] theorem State.word_drawFree (s : State) (a : Addr) : s.drawFree.word a = s.word a := rfl

theorem State.word_loadWord (s : State) (b a : Addr) (v : Word) :
    (s.loadWord b v).word a = if a = b then v else s.word a := by
  unfold State.word
  rw [State.loadWord_mem, Memory.get_set]
  by_cases h : a = b
  · simp [h]
  · have : b.toNat ≠ a.toNat := fun e => h (BitVec.eq_of_toNat_eq e.symm)
    simp [h, this]

/-- Every word after reset is what `MEM_INIT` gives it. -/
theorem State.word_afterReset (params : Params) (memInit : Addr → Word) (a : Addr) :
    (State.afterReset params memInit).word a = memInit a := by
  simp only [State.word, State.afterReset, Memory.get_ofInit]

/-- Writing a word: all `memWrite` can answer in range, and that it answers. -/
theorem State.memWrite_inRange (s : State) {a : Nat} (v : Word) (h : a < 8192) :
    s.memWrite a v = some { s with mem := s.mem.set a v } := by
  simp [State.memWrite, memWords, Nat.not_le.2 h]

theorem State.memWrite_outOfRange (s : State) {a : Nat} (v : Word) (h : 8192 ≤ a) : s.memWrite a v = none := by
  simp [State.memWrite, memWords, h]

theorem State.memRead_inRange (s : State) {a : Nat} (h : a < 8192) : s.memRead a = some (s.mem.get a) := by
  simp [State.memRead, memWords, Nat.not_le.2 h]

theorem State.memRead_outOfRange (s : State) {a : Nat} (h : 8192 ≤ a) : s.memRead a = none := by
  simp [State.memRead, memWords, h]

/-- The fetch always answers the word at pc. -/
theorem State.fetch_eq (s : State) : s.fetch = some (s.word s.pc) := s.memRead_inRange s.pc.isLt

/-- The word at an address below 8192, as memory holds it. -/
theorem State.word_ofNat (s : State) {a : Nat} (h : a < 8192) : s.word (BitVec.ofNat 13 a) = s.mem.get a := by
  simp [State.word, Nat.mod_eq_of_lt h]

/-! ### Addresses of lw and sw -/

theorem sext7_range (i : Imm7) : -64 ≤ sext7 i ∧ sext7 i ≤ 63 := by
  have h := BitVec.msb_eq_decide i
  have hi := i.isLt
  unfold sext7
  rw [show i.getLsbD 6 = i.msb by simp [BitVec.msb_eq_getLsbD_last], h]
  by_cases h64 : 64 ≤ i.toNat <;> simp [h64] <;> omega

/-- The effective address fits its width, so it fits the 14 bits of `faddr`. -/
theorem State.effectiveAddress_lt (s : State) (r : RegIdx) (imm : Imm7) :
    s.effectiveAddress r imm < 2 ^ s.params.lsAddrBits.width := by
  unfold State.effectiveAddress
  cases s.params.lsAddrBits <;> simp only [LsAddrBits.width] <;> omega

/-- An address out of range takes the 14-bit width. -/
theorem State.bits14_of_outOfRange {s : State} {r : RegIdx} {imm : Imm7}
    (h : 8192 ≤ s.effectiveAddress r imm) : s.params.lsAddrBits = .bits14 := by
  have hlt := s.effectiveAddress_lt r imm
  cases hb : s.params.lsAddrBits
  · simp only [hb, LsAddrBits.width] at hlt; omega
  · rfl

theorem State.faddrOf_effectiveAddress (s : State) (r : RegIdx) (imm : Imm7) :
    (faddrOf (s.effectiveAddress r imm)).toNat = s.effectiveAddress r imm := by
  have hlt := s.effectiveAddress_lt r imm
  have : s.effectiveAddress r imm < 16384 := by
    cases hb : s.params.lsAddrBits <;> simp only [hb, LsAddrBits.width] at hlt <;> omega
  simp [faddrOf, Nat.mod_eq_of_lt this]

end Sys2Proof.Machine
end

