-- ==== Sys2Proof/Laws/Exec.lean ====
section
/-! SUPPORT. For each shared form of a meaning, once, what it can do; and the inversion of lw and sw by whether the address is
in range. -/

namespace Sys2Proof.Machine

/-! ### The end of a step that continues -/

/-- Continuing at npc is continuing at the number `nextAddr` gives. -/
theorem State.advance_continues (s : State) : ContinuesAt s s.advance (nextAddr s) := by
  refine ⟨?_, by simp, rfl, rfl, rfl, rfl⟩
  rw [State.advance_pc, Addr.ofExact_of_addr, State.npc_toNat]

/-- Continuing at a candidate t: the pc is t modulo 8192, nothing else of the control state changes. -/
theorem State.postExecute_continues (s : State) (t : Int) : ContinuesAt s (s.postExecute t) (t % 8192).toNat :=
  ⟨Addr.ofExact_toNat t, by simp, rfl, rfl, rfl, rfl⟩

theorem State.postExecute_writesNothing (s : State) (t : Int) : WritesNothing s (s.postExecute t) :=
  ⟨s.readReg_postExecute t, fun _ => rfl⟩

theorem State.advance_writesNothing (s : State) : WritesNothing s s.advance := s.postExecute_writesNothing _

/-! ### One register write and the end of the step -/

/-- A register write does not move what comes after the instruction. -/
theorem State.nextAddr_writeReg (s : State) (d : RegIdx) (v : Word) : nextAddr (s.writeReg d v) = nextAddr s := by
  simp [nextAddr]

theorem State.writeReg_sameControl (s : State) (d : RegIdx) (v : Word) : SameControl s (s.writeReg d v) :=
  ⟨by simp, by simp, by simp, by simp⟩

/-- All that a register write followed by a jump to a candidate t does. -/
theorem State.writeReg_postExecute (s : State) (d : RegIdx) (v : Word) (t : Int) :
    ContinuesAt s ((s.writeReg d v).postExecute t) (t % 8192).toNat ∧
      WritesReg s ((s.writeReg d v).postExecute t) d v.toNat := by
  refine ⟨⟨Addr.ofExact_toNat t, by simp, s.writeReg_sameControl d v⟩, ?_, ?_, by simp⟩
  · rw [State.readReg_postExecute, State.readReg_writeReg]
    by_cases hd : d = 0
    · rw [if_pos hd, if_pos hd]; rfl
    · rw [if_neg hd, if_pos rfl, if_neg hd]
  · intro r hr
    rw [State.readReg_postExecute, State.readReg_writeReg, if_neg hr]
    by_cases h0 : r = 0
    · subst h0; rfl
    · rw [if_neg h0]

/-- All that a register write followed by the default advance does. -/
theorem State.writeReg_advance (s : State) (d : RegIdx) (v : Word) :
    ContinuesAt s (s.writeReg d v).advance (nextAddr s) ∧ WritesReg s (s.writeReg d v).advance d v.toNat := by
  have h := s.writeReg_postExecute d v (s.writeReg d v).npc.toNat
  refine ⟨⟨?_, h.1.2⟩, h.2⟩
  rw [State.advance_pc, Addr.ofExact_of_addr, State.npc_toNat, State.nextAddr_writeReg]

/-! ### Faults -/

/-- All that taking a fault does (R86, R112). -/
theorem State.takeFault_faults (s : State) (c : FaultCause) (f : BitVec 14) :
    FaultsWith s (s.takeFault c f) c f.toNat :=
  ⟨rfl, rfl, rfl, rfl, s.npc_toNat, ⟨fun _ => rfl, fun _ => rfl⟩, rfl⟩

/-! ### lw and sw -/

theorem execLw_inRange {r d : RegIdx} {imm : Imm7} {s : State} (h : s.effectiveAddress r imm < 8192) :
    execLw r d imm s = .next (s.writeReg d (s.mem.get (s.effectiveAddress r imm))).advance := by
  simp [execLw, s.memRead_inRange h]

theorem execLw_outOfRange {r d : RegIdx} {imm : Imm7} {s : State} (h : 8192 ≤ s.effectiveAddress r imm) :
    execLw r d imm s = .next (loadOutOfRange d (s.effectiveAddress r imm) s) := by
  simp [execLw, s.memRead_outOfRange h]

/-- The three things a load out of range can do. -/
theorem loadOutOfRange_cases (d : RegIdx) (ea : Nat) (s : State) :
    (d ≠ 0 ∧ loadOutOfRange d ea s = s.takeFault .loadAddrOutOfRange (faddrOf ea)) ∨
      (d = 0 ∧ loadOutOfRange d ea s = s.drawFree.takeFault .loadAddrOutOfRange (faddrOf ea)) ∨
      (d = 0 ∧ loadOutOfRange d ea s = s.drawFree.advance) := by
  by_cases hd : d = 0
  · right
    unfold loadOutOfRange
    rw [if_pos hd]
    by_cases hf : Config.lwZeroFaults s.freeCount = true
    · left; rw [if_pos hf]; exact ⟨hd, rfl⟩
    · right; rw [if_neg hf]; exact ⟨hd, rfl⟩
  · left; exact ⟨hd, if_neg hd⟩

theorem execSw_inRange {r v : RegIdx} {imm : Imm7} {s : State} (h : s.effectiveAddress r imm < 8192) :
    execSw r v imm s =
      .next ({ s with mem := s.mem.set (s.effectiveAddress r imm) (s.readReg v) } : State).advance := by
  simp [execSw, s.memWrite_inRange _ h]

theorem execSw_outOfRange {r v : RegIdx} {imm : Imm7} {s : State} (h : 8192 ≤ s.effectiveAddress r imm) :
    execSw r v imm s =
      .next (s.takeFault .storeAddrOutOfRange (faddrOf (s.effectiveAddress r imm))) := by
  simp [execSw, s.memWrite_outOfRange _ h]

/-! ### The shape of every meaning -/

/-- Every way an instruction can leave a state: what each meaning answers is one of these six forms. -/
inductive Answers (s : State) : State → Prop
  /-- It continues at a candidate t and writes nothing. -/
  | jump (t : Int) : Answers s (s.postExecute t)
  /-- It writes one register and continues at a candidate t. -/
  | write (d : RegIdx) (v : Word) (t : Int) : Answers s ((s.writeReg d v).postExecute t)
  /-- It stores one word in range and continues at npc. -/
  | store (a : Nat) (v : Word) (h : a < 8192) : Answers s ({ s with mem := s.mem.set a v } : State).advance
  /-- It halts. -/
  | halt : Answers s s.halt
  /-- It faults with cause 1 or 2 at an address out of range, under the 14-bit width; a free value may have been drawn. -/
  | fault (u : State) (c : FaultCause) (ea : Nat) (hu : u = s ∨ u = s.drawFree)
      (hc : c = .loadAddrOutOfRange ∨ c = .storeAddrOutOfRange) (h14 : s.params.lsAddrBits = .bits14)
      (hea : 8192 ≤ ea) (hlt : ea < 16384) : Answers s (u.takeFault c (faddrOf ea))
  /-- It draws a free value and continues at npc. -/
  | skip : Answers s s.drawFree.advance

theorem State.effectiveAddress_lt_16384 (s : State) (r : RegIdx) (imm : Imm7) : s.effectiveAddress r imm < 16384 := by
  have hlt := s.effectiveAddress_lt r imm
  cases hb : s.params.lsAddrBits <;> simp only [hb, LsAddrBits.width] at hlt <;> omega

/-- The inversion of `exec`: it always answers a next state, of one of the six forms. -/
theorem exec_answers (i : Instr) (s : State) : ∃ t, exec i s = .next t ∧ Answers s t := by
  cases i with
  | add a b d => exact ⟨_, rfl, .write _ _ _⟩
  | sub a b d => exact ⟨_, rfl, .write _ _ _⟩
  | or a b d => exact ⟨_, rfl, .write _ _ _⟩
  | and a b d => exact ⟨_, rfl, .write _ _ _⟩
  | slt a b d => exact ⟨_, rfl, .write _ _ _⟩
  | jr a x => exact ⟨_, rfl, .jump _⟩
  | reservedFunc5 x => exact ⟨_, rfl, .jump _⟩
  | reservedFunc6 x => exact ⟨_, rfl, .jump _⟩
  | reservedFunc7 x => exact ⟨_, rfl, .jump _⟩
  | reservedFunc9 x => exact ⟨_, rfl, .jump _⟩
  | reservedFunc10 x => exact ⟨_, rfl, .jump _⟩
  | reservedFunc11 x => exact ⟨_, rfl, .jump _⟩
  | reservedFunc12 x => exact ⟨_, rfl, .jump _⟩
  | reservedFunc13 x => exact ⟨_, rfl, .jump _⟩
  | reservedFunc14 x => exact ⟨_, rfl, .jump _⟩
  | reservedFunc15 x => exact ⟨_, rfl, .jump _⟩
  | addi r d imm => exact ⟨_, rfl, .write _ _ _⟩
  | slti r d imm => exact ⟨_, rfl, .write _ _ _⟩
  | j target =>
    by_cases h : target = s.pc
    · exact ⟨s.halt, if_pos h, .halt⟩
    · exact ⟨_, if_neg h, .jump _⟩
  | jal target => exact ⟨_, rfl, .write _ _ _⟩
  | jeq a b imm =>
    refine ⟨_, rfl, ?_⟩
    split <;> exact .jump _
  | lw r d imm =>
    rcases Nat.lt_or_ge (s.effectiveAddress r imm) 8192 with h | h
    · exact ⟨_, execLw_inRange h, .write _ _ _⟩
    · refine ⟨_, execLw_outOfRange h, ?_⟩
      have h14 := State.bits14_of_outOfRange h
      have hlt := s.effectiveAddress_lt_16384 r imm
      rcases loadOutOfRange_cases d (s.effectiveAddress r imm) s with ⟨-, e⟩ | ⟨-, e⟩ | ⟨-, e⟩ <;> rw [e]
      · exact .fault s _ _ (.inl rfl) (.inl rfl) h14 h hlt
      · exact .fault s.drawFree _ _ (.inr rfl) (.inl rfl) h14 h hlt
      · exact .skip
  | sw r v imm =>
    rcases Nat.lt_or_ge (s.effectiveAddress r imm) 8192 with h | h
    · exact ⟨_, execSw_inRange h, .store _ _ h⟩
    · exact ⟨_, execSw_outOfRange h,
        .fault s _ _ (.inl rfl) (.inr rfl) (State.bits14_of_outOfRange h) h (s.effectiveAddress_lt_16384 r imm)⟩

/-- A step of a core that is not RUNNING leaves the state as it is. -/
theorem step_stopped {s : State} (h : s.run ≠ .running) : step s = .next s := by
  unfold step
  cases hr : s.run
  · exact absurd hr h
  · rfl
  · rfl

/-- The inversion of `step`: the core is stopped and nothing changes, or the instruction at pc is executed. -/
theorem step_answers (s : State) :
    ∃ t, step s = .next t ∧
      ((s.run ≠ .running ∧ t = s) ∨
        (s.run = .running ∧ exec (decode (s.word s.pc)) s = .next t ∧ Answers s t)) := by
  by_cases h : s.run = .running
  · obtain ⟨t, ht, ha⟩ := exec_answers (decode (s.word s.pc)) s
    refine ⟨t, ?_, .inr ⟨h, ht, ha⟩⟩
    unfold step
    simp only [h, State.fetch_eq, ht]
  · exact ⟨s, step_stopped h, .inl ⟨h, rfl⟩⟩

/-- The first of n + 1 steps. -/
theorem run_succ {n : Nat} {s t : State} (h : step s = .next t) : core.run (n + 1) s = core.run n t := by
  have h' : core.step s = .next t := h
  simp only [Host.Core.run, h']

/-- A run of n steps always answers a next state. -/
theorem run_answers (n : Nat) (s : State) : ∃ t : State, core.run n s = .next t := by
  induction n generalizing s with
  | zero => exact ⟨s, rfl⟩
  | succ n ih =>
    obtain ⟨t, ht, -⟩ := step_answers s
    obtain ⟨u, hu⟩ := ih t
    exact ⟨u, (run_succ ht).trans hu⟩

end Sys2Proof.Machine
end

