-- ==== Sys2Proof/Laws/PerInstr.lean ====
section
/-! SUPPORT. Statements for all instructions, made per instruction. EncodedNumber: the word of an instruction is the number
that the encoding string of its opcode-table row gives, its fields at their places. -/

namespace Sys2Proof.Laws

/-- The number of an instruction's word. -/
def encodedNumber : Instr → Nat
  | .add a b d => a.toNat * 1024 + b.toNat * 128 + d.toNat * 16 + 0
  | .sub a b d => a.toNat * 1024 + b.toNat * 128 + d.toNat * 16 + 1
  | .or a b d => a.toNat * 1024 + b.toNat * 128 + d.toNat * 16 + 2
  | .and a b d => a.toNat * 1024 + b.toNat * 128 + d.toNat * 16 + 3
  | .slt a b d => a.toNat * 1024 + b.toNat * 128 + d.toNat * 16 + 4
  | .jr a x => a.toNat * 1024 + x.toNat * 16 + 8
  | .reservedFunc5 x => x.toNat * 16 + 5
  | .reservedFunc6 x => x.toNat * 16 + 6
  | .reservedFunc7 x => x.toNat * 16 + 7
  | .reservedFunc9 x => x.toNat * 16 + 9
  | .reservedFunc10 x => x.toNat * 16 + 10
  | .reservedFunc11 x => x.toNat * 16 + 11
  | .reservedFunc12 x => x.toNat * 16 + 12
  | .reservedFunc13 x => x.toNat * 16 + 13
  | .reservedFunc14 x => x.toNat * 16 + 14
  | .reservedFunc15 x => x.toNat * 16 + 15
  | .addi a b i => 1 * 8192 + a.toNat * 1024 + b.toNat * 128 + i.toNat
  | .lw a b i => 4 * 8192 + a.toNat * 1024 + b.toNat * 128 + i.toNat
  | .sw a b i => 5 * 8192 + a.toNat * 1024 + b.toNat * 128 + i.toNat
  | .jeq a b i => 6 * 8192 + a.toNat * 1024 + b.toNat * 128 + i.toNat
  | .slti a b i => 7 * 8192 + a.toNat * 1024 + b.toNat * 128 + i.toNat
  | .j t => 2 * 8192 + t.toNat
  | .jal t => 3 * 8192 + t.toNat

def EncodedNumber.Statement (i : Instr) : Prop := (encode i).toNat = encodedNumber i

theorem EncodedNumber.add (a b d : RegIdx) : EncodedNumber.Statement (.add a b d) := encodeRrr_toNat a b d 0

theorem EncodedNumber.sub (a b d : RegIdx) : EncodedNumber.Statement (.sub a b d) := encodeRrr_toNat a b d 1

theorem EncodedNumber.or (a b d : RegIdx) : EncodedNumber.Statement (.or a b d) := encodeRrr_toNat a b d 2

theorem EncodedNumber.and (a b d : RegIdx) : EncodedNumber.Statement (.and a b d) := encodeRrr_toNat a b d 3

theorem EncodedNumber.slt (a b d : RegIdx) : EncodedNumber.Statement (.slt a b d) := encodeRrr_toNat a b d 4

theorem EncodedNumber.jr (a : RegIdx) (x : BitVec 6) : EncodedNumber.Statement (.jr a x) := encodeJr_toNat a x

theorem EncodedNumber.reservedFunc5 (x : BitVec 9) : EncodedNumber.Statement (.reservedFunc5 x) := encodeReserved_toNat x 5

theorem EncodedNumber.reservedFunc6 (x : BitVec 9) : EncodedNumber.Statement (.reservedFunc6 x) := encodeReserved_toNat x 6

theorem EncodedNumber.reservedFunc7 (x : BitVec 9) : EncodedNumber.Statement (.reservedFunc7 x) := encodeReserved_toNat x 7

theorem EncodedNumber.reservedFunc9 (x : BitVec 9) : EncodedNumber.Statement (.reservedFunc9 x) := encodeReserved_toNat x 9

theorem EncodedNumber.reservedFunc10 (x : BitVec 9) : EncodedNumber.Statement (.reservedFunc10 x) := encodeReserved_toNat x 10

theorem EncodedNumber.reservedFunc11 (x : BitVec 9) : EncodedNumber.Statement (.reservedFunc11 x) := encodeReserved_toNat x 11

theorem EncodedNumber.reservedFunc12 (x : BitVec 9) : EncodedNumber.Statement (.reservedFunc12 x) := encodeReserved_toNat x 12

theorem EncodedNumber.reservedFunc13 (x : BitVec 9) : EncodedNumber.Statement (.reservedFunc13 x) := encodeReserved_toNat x 13

theorem EncodedNumber.reservedFunc14 (x : BitVec 9) : EncodedNumber.Statement (.reservedFunc14 x) := encodeReserved_toNat x 14

theorem EncodedNumber.reservedFunc15 (x : BitVec 9) : EncodedNumber.Statement (.reservedFunc15 x) := encodeReserved_toNat x 15

theorem EncodedNumber.addi (a b : RegIdx) (i : Imm7) : EncodedNumber.Statement (.addi a b i) := encodeRri_toNat 1 a b i

theorem EncodedNumber.lw (a b : RegIdx) (i : Imm7) : EncodedNumber.Statement (.lw a b i) := encodeRri_toNat 4 a b i

theorem EncodedNumber.sw (a b : RegIdx) (i : Imm7) : EncodedNumber.Statement (.sw a b i) := encodeRri_toNat 5 a b i

theorem EncodedNumber.jeq (a b : RegIdx) (i : Imm7) : EncodedNumber.Statement (.jeq a b i) := encodeRri_toNat 6 a b i

theorem EncodedNumber.slti (a b : RegIdx) (i : Imm7) : EncodedNumber.Statement (.slti a b i) := encodeRri_toNat 7 a b i

theorem EncodedNumber.j (t : Imm13) : EncodedNumber.Statement (.j t) := encodeJ_toNat 2 t

theorem EncodedNumber.jal (t : Imm13) : EncodedNumber.Statement (.jal t) := encodeJ_toNat 3 t

end Sys2Proof.Laws
end

