-- ==== Sys2Proof/Tests/Slice0.lean ====
section
/-! SUPPORT. Tests: the checks of the assembler notation refuse ill-formed lines; words written out from the encodings
decode; one step of each instruction on a small state, with the expected values of spec/95_test_vectors.md; and a witness
for the hypotheses of each statement. -/

namespace Sys2Proof.Tests

open Sys2Proof Sys2Proof.Machine

/-! ### WellFormed: an ill-formed line for each check (spec/30_encoding.md R74, R75) -/

theorem test_wf_register_8_refused : assemble 0 (.rrr .add 8 1 2) = none := by decide

theorem test_wf_source_register_8_refused : assemble 0 (.rrr .add 3 8 2) = none := by decide

theorem test_wf_second_source_8_refused : assemble 0 (.rrr .add 3 1 8) = none := by decide

theorem test_wf_jr_register_refused : assemble 0 (.jr 8) = none := by decide

theorem test_wf_immediate_64_refused : assemble 0 (.addi 1 0 64) = none := by decide

theorem test_wf_immediate_below_refused : assemble 0 (.slti 1 0 (-65)) = none := by decide

theorem test_wf_load_offset_refused : assemble 0 (.lw 1 64 0) = none := by decide

theorem test_wf_store_offset_refused : assemble 0 (.sw 1 (-65) 0) = none := by decide

theorem test_wf_branch_offset_refused : assemble 0 (.jeq 1 2 64) = none := by decide

theorem test_wf_label_too_far_refused : assemble 0 (.jeqLabel 1 2 65) = none := by decide

theorem test_wf_label_no_address_refused : assemble 8191 (.jeqLabel 1 2 8192) = none := by decide

theorem test_wf_jump_address_refused : assemble 0 (.j 8192) = none := by decide

theorem test_wf_jal_address_refused : assemble 0 (.jal 8192) = none := by decide

theorem test_wf_fill_refused : assemble 0 (.fill 65536) = none := by decide

theorem test_wf_halt_address_refused : assemble 8192 .halt = none := by decide

/-- Lines of the programs of spec/95_test_vectors.md, Part 3. -/
theorem test_assemble_lines :
    assemble 0 (.addi 1 0 5) = some 0x2085 ∧ assemble 5 (.jeqLabel 0 0 2) = some 0xC07C ∧
      assemble 6 (.sw 2 50 0) = some 0xA132 ∧ assemble 7 (.lw 3 50 0) = some 0x81B2 ∧
      assemble 8 .halt = some 0x4008 ∧ assemble 2 (.rrr .slt 5 1 2) = some 0x0554 ∧
      assemble 10 (.jr 7) = some 0x1C08 := by decide

/-! ### Decoding: each constructor's word, written out bit by bit (R61 to R63, R69, R70) -/

theorem test_decode_add : decode 0b0000010100110000 = .add 1 2 3 := by decide

theorem test_decode_sub : decode 0b0001110000010001 = .sub 7 0 1 := by decide

theorem test_decode_or : decode 0b0000010000110010 = .or 1 0 3 := by decide

theorem test_decode_and : decode 0b0000010100110011 = .and 1 2 3 := by decide

theorem test_decode_slt : decode 0b0000000100110100 = .slt 0 2 3 := by decide

theorem test_decode_jr : decode 0b0000011111111000 = .jr 1 63 := by decide

theorem test_decode_jr_return : decode 0b0001110000001000 = .jr 7 0 := by decide

theorem test_decode_reserved_5 : decode 0b0001000000010101 = .reservedFunc5 257 := by decide

theorem test_decode_reserved_6 : decode 0b0001000000010110 = .reservedFunc6 257 := by decide

theorem test_decode_reserved_7 : decode 0b0001000000010111 = .reservedFunc7 257 := by decide

theorem test_decode_reserved_9 : decode 0b0001000000011001 = .reservedFunc9 257 := by decide

theorem test_decode_reserved_10 : decode 0b0001000000011010 = .reservedFunc10 257 := by decide

theorem test_decode_reserved_11 : decode 0b0001000000011011 = .reservedFunc11 257 := by decide

theorem test_decode_reserved_12 : decode 0b0001000000011100 = .reservedFunc12 257 := by decide

theorem test_decode_reserved_13 : decode 0b0001000000011101 = .reservedFunc13 257 := by decide

theorem test_decode_reserved_14 : decode 0b0001000000011110 = .reservedFunc14 257 := by decide

theorem test_decode_reserved_15 : decode 0b0001000000011111 = .reservedFunc15 257 := by decide

theorem test_decode_addi : decode 0b0010000010000101 = .addi 0 1 5 := by decide

theorem test_decode_j : decode 0b0100000000000011 = .j 3 := by decide

theorem test_decode_jal : decode 0b0110000001100100 = .jal 100 := by decide

theorem test_decode_lw : decode 0b1000010110000101 = .lw 1 3 5 := by decide

theorem test_decode_sw : decode 0b1010010100000101 = .sw 1 2 5 := by decide

theorem test_decode_jeq : decode 0b1100010100000011 = .jeq 1 2 3 := by decide

theorem test_decode_slti : decode 0b1110010100001010 = .slti 1 2 10 := by decide

theorem test_decode_table_word : decodeTableWord 16 0xE000 = some (.slti 0 0 0) := by decide

/-! ### One step (spec/95_test_vectors.md, Part 2): the word stands at the pc -/

/-- A core RUNNING at pc with a word there, two registers set and one more word of memory. -/
def before (width : LsAddrBits) (pc : Addr) (w r1 r2 : Word) (cell : Addr) (v : Word) : State :=
  { State.reset with
    pc := pc, regs := #v[0, r1, r2, 0, 0, 0, 0, 0],
    mem := (Memory.set [] cell.toNat v).set pc.toNat w, params := { lsAddrBits := width } }

/-- The state after one step. -/
def after (s : State) : State :=
  match step s with
  | .next t => t
  | .fault _ => s
  | .refused _ => s

/-- One step at address 10 under the 13-bit width: the pc, a register and the run state. -/
def result (w r1 r2 : Word) (r : RegIdx) : Addr × Word × RunState :=
  let t := after (before .bits13 10 w r1 r2 0 0)
  (t.pc, t.readReg r, t.run)

theorem test_add_wraps : result 0x0530 0xFFFF 0xFFFF 3 = (11, 0xFFFE, .running) := by decide

theorem test_sub : result 0x0531 3 5 3 = (11, 0xFFFE, .running) := by decide

theorem test_sub_from_sign : result 0x0531 0x8000 1 3 = (11, 0x7FFF, .running) := by decide

theorem test_or : result 0x0532 0x00F0 0x0F0F 3 = (11, 0x0FFF, .running) := by decide

theorem test_and : result 0x0533 0x00F0 0x0F3C 3 = (11, 0x0030, .running) := by decide

theorem test_slt_unsigned : result 0x0534 0xFFFF 1 3 = (11, 0, .running) := by decide

theorem test_slt_less : result 0x0534 1 0xFFFF 3 = (11, 1, .running) := by decide

theorem test_jr_wraps : result 0x0408 0xFFFF 0 0 = (8191, 0, .running) := by decide

theorem test_jr_ignores_fields : result 0x07F8 40 9 7 = (40, 0, .running) := by decide

theorem test_addi_negative : result 0x20C0 0 0 1 = (11, 0xFFC0, .running) := by decide

theorem test_addi_wraps : result 0x2501 0xFFFF 0 2 = (11, 0, .running) := by decide

theorem test_slti_negative : result 0xE540 0xFFBF 0 2 = (11, 1, .running) := by decide

theorem test_slti_unsigned : result 0xE505 0x8000 0 2 = (11, 0, .running) := by decide

theorem test_j_halts : result 0x400A 0 0 0 = (10, 0, .halted) := by decide

theorem test_j_next_runs : result 0x400B 0 0 0 = (11, 0, .running) := by decide

theorem test_jal_self_runs : result 0x600A 0 0 7 = (10, 11, .running) := by decide

theorem test_jeq_not_taken : result 0xC503 4 5 2 = (11, 5, .running) := by decide

theorem test_write_to_zero_discarded : result 0x0500 5 3 0 = (11, 0, .running) := by decide

theorem test_reserved_5_noop : result 0x0535 5 3 3 = (11, 0, .running) := by decide

theorem test_reserved_6_noop : result 0x0536 5 3 3 = (11, 0, .running) := by decide

theorem test_reserved_7_noop : result 0x0537 5 3 3 = (11, 0, .running) := by decide

theorem test_reserved_9_noop : result 0x0539 5 3 3 = (11, 0, .running) := by decide

theorem test_reserved_10_noop : result 0x053A 5 3 3 = (11, 0, .running) := by decide

theorem test_reserved_11_noop : result 0x053B 5 3 3 = (11, 0, .running) := by decide

theorem test_reserved_12_noop : result 0x053C 5 3 3 = (11, 0, .running) := by decide

theorem test_reserved_13_noop : result 0x053D 5 3 3 = (11, 0, .running) := by decide

theorem test_reserved_14_noop : result 0x053E 5 3 3 = (11, 0, .running) := by decide

theorem test_reserved_15_noop : result 0x053F 5 3 3 = (11, 0, .running) := by decide

theorem test_jal_links_zero_at_8191 :
    (after (before .bits13 8191 0x6000 0 0 0 0)).readReg 7 = 0 ∧ (after (before .bits13 8191 0x6000 0 0 0 0)).pc = 0 := by
  decide

theorem test_jeq_taken_back_and_wraps :
    (result 0xC57B 0x8000 0x8000 1).1 = 6 ∧ (after (before .bits13 8190 0xC03F 0 0 0 0)).pc = 62 := by decide

/-- A load of a data word, and of the lw's own word. -/
theorem test_lw :
    (after (before .bits13 10 0x8585 100 0 105 0xBEEF)).readReg 3 = 0xBEEF ∧
      result 0x810A 0 0 2 = (11, 0x810A, .running) := by decide

theorem test_lw_faults_under_14 :
    (after (before .bits14 10 0x8580 0x2000 0 0 0)).fault = ⟨.loadAddrOutOfRange, 10, 8192⟩ ∧
      (after (before .bits14 10 0x8580 0x2000 0 0 0)).pc = 11 := by decide

/-- A store; and storing 0 removes the entry, so that the memory keeps its canonical form. -/
theorem test_sw :
    (after (before .bits13 10 0xA505 100 0xBEEF 0 0)).word 105 = 0xBEEF ∧
      (after (before .bits13 10 0xA405 100 0 105 0x5555)).mem = [(10, 0xA405)] := by decide

theorem test_sw_faults_under_14 :
    (after (before .bits14 10 0xA500 0x3FFF 9 0 0)).fault = ⟨.storeAddrOutOfRange, 10, 16383⟩ ∧
      (after (before .bits14 10 0xA500 0x3FFF 9 0 0)).run = .faulted := by decide

/-! ### Witnesses: states and operands that meet the hypotheses of the statements

`before` gives the states; the boundary addresses are 8191 and 8192. -/

/-- A state in range at the last address, and one out of range at the first, under each form of lw and sw. -/
theorem witness_effective_address_clauses :
    (before .bits13 10 0 0x2000 0 0 0).effectiveAddress 1 0 = 0 ∧
      (before .bits13 10 0 0 0 0 0).effectiveAddress 0 127 = 8191 ∧
      (before .bits14 10 0 0x1FFF 0 0 0).effectiveAddress 1 0 = 8191 ∧
      (before .bits14 10 0 0x2000 0 0 0).effectiveAddress 1 0 = 8192 ∧
      (before .bits14 10 0 0 0 0 0).effectiveAddress 0 127 = 16383 ∧
      (before .bits14 10 0 0x2000 0 0 0).params.lsAddrBits = .bits14 := by decide

/-- EffectiveAddressReducedToWidth, 13-bit clause: an answered lw. -/
theorem witness_EffectiveAddressReducedToWidth :
    ∃ t, exec (.lw 0 1 127) (before .bits13 10 0 0 0 0 0) = .next t ∧ t.run = .running := ⟨_, rfl, rfl⟩

/-- JHaltsAtItsOwnAddressElseJumps: a j that halts, and a state where it does not. -/
theorem witness_JHaltsAtItsOwnAddressElseJumps :
    (∃ t, exec (.j 10) (before .bits13 10 0 0 0 0 0) = .next t ∧
      (before .bits13 10 0 0 0 0 0).run = .running ∧ t.run = .halted) ∧
      (11 : Imm13) ≠ (before .bits13 10 0 0 0 0 0).pc := ⟨⟨_, rfl, rfl, rfl⟩, by decide⟩

/-- JrThroughLinkReturnsAfterJal: the state after a jal holds the link. -/
theorem witness_JrThroughLinkReturnsAfterJal :
    ∃ t, exec (.jal 100) (before .bits13 20 0 0 0 0 0) = .next t ∧ t.readReg 7 = 21 := ⟨_, rfl, by decide⟩

/-- LwLoadsWordOrFaults: in range; out of range with a destination; out of range with register 0. -/
theorem witness_LwLoadsWordOrFaults :
    (before .bits13 10 0 0 0 8191 0x1234).effectiveAddress 0 127 < 8192 ∧
      ¬(before .bits14 10 0 0x2000 0 0 0).effectiveAddress 1 0 < 8192 ∧ (3 : RegIdx) ≠ 0 ∧ ¬(0 : RegIdx) ≠ 0 := by
  decide

/-- SwStoresWordOrFaults: in range at 8191 and out of range at 8192. -/
theorem witness_SwStoresWordOrFaults :
    (before .bits14 10 0 0x1FFF 7 0 0).effectiveAddress 1 0 < 8192 ∧
      ¬(before .bits14 10 0 0x2000 7 0 0).effectiveAddress 1 0 < 8192 := by decide

/-- StoreThenLoadReturnsValue. -/
theorem witness_StoreThenLoadReturnsValue :
    (before .bits13 10 0 100 0xBEEF 0 0).effectiveAddress 1 5 < 8192 ∧ (3 : RegIdx) ≠ 0 := by decide

/-- MemReadInRangeOnly and MemWriteChangesOneWord: the addresses on each side of the boundary. -/
theorem witness_memory_boundary :
    (before .bits13 10 0 0 0 8191 7).memRead 8191 = some 7 ∧ (before .bits13 10 0 0 0 0 0).memRead 8192 = none ∧
      ((before .bits13 10 0 0 0 0 0).memWrite 8191 5).isSome ∧
      ((before .bits13 10 0 0 0 0 0).memWrite 8192 5).isSome = false := by decide

/-- OnlySwChangesMemory: an answered sw. -/
theorem witness_OnlySwChangesMemory :
    ∃ t, exec (.sw 1 2 5) (before .bits13 10 0 100 0xBEEF 0 0) = .next t ∧ t.word 105 = 0xBEEF := ⟨_, rfl, by decide⟩

/-- NextFetchSeesStore: a sw to the address after it. -/
theorem witness_NextFetchSeesStore :
    let s := before .bits13 10 0xA505 6 0x4002 0 0
    s.run = .running ∧ decode (s.word s.pc) = .sw 1 2 5 ∧ s.effectiveAddress 1 5 < 8192 ∧
      (11 : Addr).toNat = s.effectiveAddress 1 5 := by decide

/-- ReadsReturnMostRecentStore: an address operand for the lw clause, after no step (register 0 reads 0 in every state). -/
theorem witness_ReadsReturnMostRecentStore :
    core.run 0 (State.afterReset Params.standard fun _ => 7) = .next (State.afterReset Params.standard fun _ => 7) ∧
      (State.afterReset Params.standard fun _ => 7).effectiveAddress 0 5 = (5 : Addr).toNat ∧ (1 : RegIdx) ≠ 0 :=
  ⟨rfl, by simp only [State.effectiveAddress, State.afterReset]; decide, by decide⟩

/-- ReservedFunctionCodesAreNoOps: the first and the last code of the list. -/
theorem witness_ReservedFunctionCodesAreNoOps :
    ∀ p ∈ [(5, Instr.reservedFunc5), (15, Instr.reservedFunc15)],
      p ∈ [(5, Instr.reservedFunc5), (6, Instr.reservedFunc6), (7, Instr.reservedFunc7),
           (9, Instr.reservedFunc9), (10, Instr.reservedFunc10), (11, Instr.reservedFunc11),
           (12, Instr.reservedFunc12), (13, Instr.reservedFunc13), (14, Instr.reservedFunc14),
           (15, Instr.reservedFunc15)] := by
  intro p hp
  simp only [List.mem_cons, List.not_mem_nil, or_false] at hp
  rcases hp with rfl | rfl <;> simp

/-- EncodingEquations: the ends of the immediate range. -/
theorem witness_EncodingEquations :
    (-64 : Int) ≤ -64 ∧ (-64 : Int) ≤ 63 ∧ (63 : Int) ≤ 63 ∧ encode (.addi 0 1 (BitVec.ofInt 7 (-64))) = 0x20C0 := by
  decide

/-- IgnoredBitsChangeNothing: two words of jr $1 and two of reserved function 5, different in ignored bits only;
and words outside those rows: an addi, a slt and an add. -/
theorem witness_IgnoredBitsChangeNothing :
    (0x0408 : Word) &&& 0xE00F = 0x0008 ∧ (0x07F8 : Word) &&& 0xFC0F = 0x0408 &&& 0xFC0F ∧
      (0x0005 : Word) &&& 0xE000 = 0 ∧ ((0x0005 : Word) &&& 0x000F).toNat ∈ [5, 6, 7, 9, 10, 11, 12, 13, 14, 15] ∧
      (0x1FF5 : Word) &&& 0xE00F = 0x0005 &&& 0xE00F ∧ (0x2085 : Word) &&& 0xE000 ≠ 0 ∧
      ((0x0504 : Word) &&& 0x000F).toNat ∈ [0, 1, 2, 3, 4] ∧ ((0x0500 : Word) &&& 0x000F).toNat ∈ [0, 1, 2, 3, 4] := by decide

/-- AssemblerNotationWords: the ends of each range. -/
theorem witness_AssemblerNotationWords :
    (7 : Nat) < 8 ∧ (-64 : Int) ≤ -64 ∧ (63 : Int) ≤ 63 ∧ (8191 : Nat) < 8192 ∧ (65535 : Nat) < 65536 ∧
      (63 : Int) < 64 ∧ assemble 8191 .halt = some 0x5FFF := by decide

/-- RegisterZeroIsHardwired: a RUNNING state whose step continues. -/
theorem witness_RegisterZeroIsHardwired :
    (before .bits13 10 0x0500 5 3 0 0).regs[0] = 0 ∧ (before .bits13 10 0x0500 5 3 0 0).run = .running ∧
      (after (before .bits13 10 0x0500 5 3 0 0)).run = .running := by decide

/-- RegisterWriteCommit: register 0 and a register that is not. -/
theorem witness_RegisterWriteCommit : (0 : RegIdx) = 0 ∧ (7 : RegIdx) ≠ 0 := by decide

/-- RegisterReadWriteTable: two register files that agree on R1 and R2 and differ in R3, and an instruction answered. -/
theorem witness_RegisterReadWriteTable :
    let s := before .bits13 10 0x0530 5 3 0 0
    (∀ r ∈ regsRead (.add 1 2 3),
      ({ s with regs := #v[0, 5, 3, 9, 0, 0, 0, 0] } : State).readReg r = s.readReg r) ∧
      some (4 : RegIdx) ≠ regWritten (.add 1 2 3) ∧ some (3 : RegIdx) = regWritten (.add 1 2 3) := by decide

/-- StepRunsTheDecodedInstruction and the clauses of StepOnlyWhileRunningAndRequested. -/
theorem witness_step_hypotheses :
    State.reset.run = .running ∧ State.reset.halt.run ≠ .running ∧ (rstInputs true).rst = true ∧
      (rstInputs false).rst = false := by decide

/-- RunStateTransitions: a halting step, a faulting step, the stopped states, and reset. -/
theorem witness_RunStateTransitions :
    decode ((before .bits13 10 0x400A 0 0 0 0).word 10) = .j 10 ∧
      (after (before .bits14 10 0xA500 0x2000 9 0 0)).run = .faulted ∧
      8192 ≤ (before .bits14 10 0xA500 0x2000 9 0 0).effectiveAddress 1 0 ∧
      (after (before .bits13 10 0x400A 0 0 0 0)).run = .halted ∧ (rstInputs true).rst = true := by decide

/-- SelfJumpsOtherThanJLoopForever: the three self-jumps at address 10. -/
theorem witness_SelfJumpsOtherThanJLoopForever :
    let jalSelf := before .bits13 10 0x600A 0 0 0 0
    let jrSelf := before .bits13 10 0x0408 10 0 0 0
    let jeqSelf := before .bits13 10 0xC07F 0 0 0 0
    (jalSelf.run = .running ∧ decode (jalSelf.word jalSelf.pc) = .jal jalSelf.pc) ∧
      (decode (jrSelf.word jrSelf.pc) = .jr 1 0 ∧ (jrSelf.readReg 1).toNat % 8192 = jrSelf.pc.toNat) ∧
      (decode (jeqSelf.word jeqSelf.pc) = .jeq 0 0 127 ∧ jeqSelf.readReg 0 = jeqSelf.readReg 0) := by decide

/-- FaultRecordWrittenOnlyOnFault, FaultIsPreciseButForPc, FaultCausesAndCodes, FaultReachability: a RUNNING state whose
step faults (lw, cause 1), and one under the 13-bit width that is not FAULTED. -/
theorem witness_fault_hypotheses :
    let s := before .bits14 10 0x8580 0x2000 0 0 0
    s.run = .running ∧ (after s).run = .faulted ∧ (after s).fault ≠ s.fault ∧
      decode (s.word s.pc) = .lw 1 3 0 ∧ 8192 ≤ s.effectiveAddress 1 0 ∧ (3 : RegIdx) ≠ 0 ∧
      State.reset.params.lsAddrBits = .bits13 ∧ State.reset.run ≠ .faulted := by decide

/-- FaultReachability, last clause: a step that faults, as an equation. -/
theorem witness_FaultReachability :
    ∃ t, step (before .bits14 10 0x8580 0x2000 0 0 0) = .next t ∧ t.run = .faulted := ⟨_, rfl, by decide⟩

/-- EveryStepKeepsInvariant: a RUNNING state, a HALTED one and a FAULTED one with the invariant. -/
theorem witness_EveryStepKeepsInvariant :
    (before .bits13 10 0xA505 100 0xBEEF 0 0).Inv ∧ (after (before .bits13 10 0x400A 0 0 0 0)).Inv ∧
      (after (before .bits14 10 0x8580 0x2000 0 0 0)).Inv := by decide

/-- ResetEstablishesInvariant and ResetState: an input that holds the core in reset and loads a word. -/
theorem witness_reset_hypotheses :
    (loadInputs 3 0x4003).rst = true ∧ (loadInputs 3 0x4003).ldWe = true ∧
      (before .bits13 10 0 5 3 105 7).mem.wf = true := by decide

/-- BootLoadsImage: an image that fits, and one beyond capacity. -/
theorem witness_BootLoadsImage :
    ¬8192 < ([0x2085, 0x4001] : List Word).length ∧ 8192 < (List.replicate 8193 (0 : Word)).length :=
  ⟨by decide, by rw [List.length_replicate]; decide⟩

end Sys2Proof.Tests
end

section
/-! PROOFS. R15: sign and zero extension of an immediate. -/

namespace Sys2Proof.Machine

/-- `sext7` is the two's complement value of the seven bits. -/
theorem sext7_eq_toInt (i : Imm7) : sext7 i = i.toInt := by
  rw [BitVec.toInt_eq_msb_cond, BitVec.msb_eq_getLsbD_last]
  rfl

/-- `sext_16` is the sign extension of the seven bits to a word. -/
theorem sext16_eq_signExtend (i : Imm7) : sext16 i = i.signExtend 16 := by
  unfold sext16
  rw [sext7_eq_toInt]
  rfl

theorem sext16_toNat (i : Imm7) : ((sext16 i).toNat : Int) = sext7 i % 65536 := by
  unfold sext16
  rw [Word.ofExact_toNat]
  exact Int.toNat_of_nonneg (Int.emod_nonneg _ (by decide))

/-- Every bit of `sext_16(i)` from 7 on is the sign bit of the immediate. -/
theorem sext16_upperBits (i : Imm7) {k : Nat} (hlo : 7 ≤ k) (hhi : k ≤ 15) :
    (sext16 i).getLsbD k = i.getLsbD 6 := by
  have hword : k < 16 := by omega
  have hsign : ¬k < 7 := by omega
  rw [sext16_eq_signExtend, BitVec.getLsbD_signExtend, BitVec.msb_eq_getLsbD_last]
  simp [hword, hsign]

/-- Settles O10: `sext7` by its definition and range, `sext_16` as the sign extension, and widening as zero extension. -/
theorem immediateExtension : Obligations.ImmediateExtension := by
  refine ⟨fun i => ?_, fun n m v hnm => BitVec.toNat_setWidth_of_le hnm⟩
  obtain ⟨hlow, hhigh⟩ := sext7_range i
  exact ⟨rfl, hlow, hhigh, sext16_toNat i, fun k => sext16_upperBits i⟩

end Sys2Proof.Machine
end

section
/-! PROOFS. What one transaction of the host can do, what a sequence of them keeps, and that the parameters are kept
(R9, R10). -/

namespace Sys2Proof.Machine

/-- The inversion of `transact`: it holds the core in reset, with or without a load, or takes a requested step, or does
nothing. -/
theorem transact_answers (inp : Inputs) (s : State) :
    ∃ t, transact inp s = .next t ∧
      ((inp.rst = true ∧ inp.ldWe = true ∧ t = s.applyReset.loadWord inp.ldAddr inp.ldData) ∨
        (inp.rst = true ∧ inp.ldWe = false ∧ t = s.applyReset) ∨
        (inp.rst = false ∧ inp.stepReq = true ∧ step s = .next t) ∨
        (inp.rst = false ∧ inp.stepReq = false ∧ t = s)) := by
  unfold transact
  cases hrst : inp.rst with
  | true => cases hld : inp.ldWe <;> simp
  | false =>
    cases hreq : inp.stepReq with
    | true =>
      obtain ⟨t, ht, -⟩ := step_answers s
      exact ⟨t, by simpa using ht, by simpa using ht⟩
    | false => simp

/-- What every transaction answers with and keeps, a sequence of transactions answers with and keeps. -/
theorem transactAll_keeps {P : State → Prop} (keeps : ∀ inp s, P s → ∃ t, transact inp s = .next t ∧ P t)
    (inputs : List Inputs) {s : State} (hs : P s) : ∃ t, transactAll inputs s = .next t ∧ P t := by
  induction inputs generalizing s with
  | nil => exact ⟨s, rfl, hs⟩
  | cons inp rest ih =>
    obtain ⟨u, hu, hPu⟩ := keeps inp s hs
    obtain ⟨t, ht, hPt⟩ := ih hPu
    exact ⟨t, by simpa only [transactAll, hu] using ht, hPt⟩

/-! ### The parameters -/

/-- None of the six forms of an answer changes the parameters. -/
theorem Answers.params_eq {s t : State} (h : Answers s t) : t.params = s.params := by
  cases h with
  | jump target => exact s.postExecute_params target
  | write d v target => exact s.writeReg_params d v
  | store a v h => rfl
  | halt => exact s.halt_params
  | fault u c ea hu => rcases hu with rfl | rfl <;> simp
  | skip => simp

theorem step_params {s t : State} (h : step s = .next t) : t.params = s.params := by
  obtain ⟨u, hu, hforms⟩ := step_answers s
  obtain rfl : t = u := Host.Outcome.next.inj (h.symm.trans hu)
  rcases hforms with ⟨-, rfl⟩ | ⟨-, -, hanswer⟩
  · rfl
  · exact hanswer.params_eq

theorem transact_params (inp : Inputs) (s : State) : ∃ t, transact inp s = .next t ∧ t.params = s.params := by
  obtain ⟨t, ht, hforms⟩ := transact_answers inp s
  refine ⟨t, ht, ?_⟩
  rcases hforms with ⟨-, -, rfl⟩ | ⟨-, -, rfl⟩ | ⟨-, -, hstep⟩ | ⟨-, -, rfl⟩
  · simp
  · simp
  · exact step_params hstep
  · rfl

/-- Settles O48: every transaction keeps the parameters, so every sequence of them does. -/
theorem parametersNeverChange : Obligations.ParametersNeverChange := by
  intro inputs s
  refine transactAll_keeps (P := fun t => t.params = s.params) (fun inp u hu => ?_) inputs rfl
  obtain ⟨t, ht, hparams⟩ := transact_params inp u
  exact ⟨t, ht, hparams.trans hu⟩

end Sys2Proof.Machine
end

section
/-! PROOFS. What every answer of an instruction keeps: the cell R[0], the canonical memory and the fault record; and from it
the invariant of the core (R23, R36, R86, R108, R109). -/

namespace Sys2Proof.Machine

/-! ### The parts of the invariant, over the six forms of an answer -/

/-- The cell R[0] is 0 after an answer, unless the core stops and keeps its register file. -/
theorem Answers.cell_zero_or_stopped {s t : State} (h : Answers s t) :
    t.regs[0] = 0 ∨ (t.regs = s.regs ∧ t.run ≠ .running) := by
  cases h with
  | jump | write | store | skip => left; simp
  | halt => right; simp
  | fault u c ea hu => right; rcases hu with rfl | rfl <;> simp

theorem Answers.keeps_cell_zero {s t : State} (h : Answers s t) (hs : s.regs[0] = 0) : t.regs[0] = 0 := by
  rcases h.cell_zero_or_stopped with hzero | ⟨hregs, -⟩
  · exact hzero
  · rw [hregs, hs]

theorem Answers.keeps_mem_wf {s t : State} (h : Answers s t) (hs : s.mem.wf = true) : t.mem.wf = true := by
  cases h with
  | jump target => exact hs
  | write d v target => simpa using hs
  | store a v ha => exact Memory.wf_set hs ha v
  | halt => exact hs
  | fault u c ea hu => rcases hu with rfl | rfl <;> exact hs
  | skip => exact hs

/-- What the invariant says of a FAULTED core (R86, R108, R109). -/
def State.FaultExplained (s : State) : Prop :=
  s.params.lsAddrBits = .bits14 ∧
    (s.fault.cause = .loadAddrOutOfRange ∨ s.fault.cause = .storeAddrOutOfRange) ∧
    8192 ≤ s.fault.faddr.toNat ∧ s.pc.toNat = (s.fault.fpc.toNat + 1) % 8192

theorem faddrOf_toNat {ea : Nat} (h : ea < 16384) : (faddrOf ea).toNat = ea :=
  Nat.mod_eq_of_lt h

theorem State.takeFault_explained {u : State} {c : FaultCause} {ea : Nat}
    (hc : c = .loadAddrOutOfRange ∨ c = .storeAddrOutOfRange) (h14 : u.params.lsAddrBits = .bits14)
    (hea : 8192 ≤ ea) (hlt : ea < 16384) : (u.takeFault c (faddrOf ea)).FaultExplained :=
  ⟨h14, hc, hea.trans_eq (faddrOf_toNat hlt).symm, u.npc_toNat⟩

/-- An answer of a core that is not FAULTED leaves the fault record alone, or is a fault with its record. -/
theorem Answers.fault_kept_or_explained {s t : State} (h : Answers s t) (hs : s.run ≠ .faulted) :
    (t.run ≠ .faulted ∧ t.fault = s.fault) ∨ (t.run = .faulted ∧ t.FaultExplained) := by
  cases h with
  | jump | write | store | skip => left; simpa using hs
  | halt => left; simp
  | fault u c ea hu hc h14 hea hlt =>
    right
    refine ⟨rfl, State.takeFault_explained hc ?_ hea hlt⟩
    rcases hu with rfl | rfl <;> exact h14

theorem Answers.keeps_inv {s t : State} (h : Answers s t) (hrun : s.run ≠ .faulted) (hs : s.Inv) : t.Inv := by
  obtain ⟨hcell, hwf, hclear, -⟩ := hs
  refine ⟨h.keeps_cell_zero hcell, h.keeps_mem_wf hwf, ?_⟩
  rcases h.fault_kept_or_explained hrun with ⟨hnot, hkept⟩ | ⟨hfaulted, hexplained⟩
  · exact ⟨fun _ => hkept.trans (hclear hrun), fun hf => absurd hf hnot⟩
  · exact ⟨fun hnot => absurd hfaulted hnot, fun _ => hexplained⟩

/-- Settles O46: a stopped core keeps its state, and every answer of an instruction keeps each part of the invariant. -/
theorem everyStepKeepsInvariant : Obligations.EveryStepKeepsInvariant := by
  intro s hs
  obtain ⟨t, ht, hforms⟩ := step_answers s
  refine ⟨t, ht, ?_⟩
  rcases hforms with ⟨-, rfl⟩ | ⟨hrun, -, hanswer⟩
  · exact hs
  · exact hanswer.keeps_inv (by simp [hrun]) hs

/-! ### Register 0 and the host's outputs -/

/-- `reg_out` shows the registers as instructions read them. -/
theorem State.outputs_regOut (s : State) (a : Addr) (r : RegIdx) :
    (s.outputs a).regOut[r.toNat]'r.isLt = s.readReg r := by
  simp [State.outputs]

/-- Settles O31: register 0 reads 0 whatever the cell holds, and each form of an answer clears the cell or stops. -/
theorem registerZeroIsHardwired : Obligations.RegisterZeroIsHardwired := by
  refine ⟨State.readReg_zero, State.writeReg_zero, fun s => ?_⟩
  obtain ⟨t, ht, hforms⟩ := step_answers s
  refine ⟨t, ht, t.readReg_zero, fun a => t.outputs_regOut a 0, ?_⟩
  rcases hforms with ⟨hstopped, rfl⟩ | ⟨-, -, hanswer⟩
  · exact ⟨id, fun hrun => absurd hrun hstopped⟩
  · refine ⟨hanswer.keeps_cell_zero, fun _ hrun => ?_⟩
    exact hanswer.cell_zero_or_stopped.resolve_right fun ⟨_, hstop⟩ => hstop hrun

/-- Settles O52: each output is the field of the state it shows. -/
theorem observationShowsState : Obligations.ObservationShowsState :=
  fun s a => ⟨rfl, rfl, rfl, s.outputs_regOut a, rfl, rfl, rfl⟩

/-! ### The run state on `status`, and the reset state -/

/-- Settles O39: the three run states have three different codes, none of them 3. -/
theorem statusEncodesRunState : Obligations.StatusEncodesRunState := by
  refine ⟨fun s a => ?_, fun s => ?_, rfl, fun s => s.applyReset_run⟩
  · have hstatus : (s.outputs a).status = s.run.status := rfl
    rw [hstatus]
    cases s.run <;> decide
  · cases s.run <;> simp

/-- Settles O50: register 0 by its reading, the others by the cells. -/
theorem resetRegistersAndPcAreZero : Obligations.ResetRegistersAndPcAreZero := by
  refine ⟨fun r => ?_, rfl, rfl⟩
  by_cases hr : r = 0
  · rw [hr, State.readReg_zero]
  · rw [State.readReg_of_ne _ hr]
    exact Vector.getElem_replicate _

end Sys2Proof.Machine
end

section
/-! PROOFS. What each instruction does as one effect on the state, read off the tables of spec/10_state.md: its register
(R24), its next pc (R29), its store (R32, R47), its run-state transition (R35) and its fault record (R36). `Answers` gives the form
of an answer whatever the instruction; an effect ties the form to the instruction, and is one value for all states that the
instruction cannot tell apart. -/

namespace Sys2Proof.Machine

/-! ### Effects -/

/-- What an instruction does to a state, once the registers it reads have been read. -/
inductive Effect where
  /-- It continues at a candidate t and writes nothing. -/
  | jump (t : Int)
  /-- It writes one register and continues at a candidate t. -/
  | write (d : RegIdx) (v : Word) (t : Int)
  /-- It stores one word and continues at npc. -/
  | store (ea : Nat) (v : Word)
  /-- It halts. -/
  | halt
  /-- It draws some number of free values and faults. -/
  | fault (drawn : Nat) (c : FaultCause) (ea : Nat)
  /-- It draws a free value and continues at npc: the admitted lw to register 0 that does not fault (R105). -/
  | skip

def Effect.apply (s : State) : Effect → State
  | .jump t => s.postExecute t
  | .write d v t => (s.writeReg d v).postExecute t
  | .store ea v => ({ s with mem := s.mem.set ea v } : State).advance
  | .halt => s.halt
  | .fault drawn c ea => ({ s with freeCount := s.freeCount + drawn } : State).takeFault c (faddrOf ea)
  | .skip => s.drawFree.advance

/-- An instruction that at a state stores nothing, need not fault and is not the halt idiom. -/
structure Calm (i : Instr) (s : State) : Prop where
  noStore : storeOf i s = none
  noFault : ¬mustFault i s
  noHalt : i ≠ .j s.pc

/-- The effects an instruction may have at a state, with what the tables of spec/10_state.md say of it. -/
inductive HasEffect (s : State) : Instr → Effect → Prop
  | jump {i : Instr} {t : Int} (hwritten : regWritten i = none) (hpc : nextPcOf i s = (t % 8192).toNat)
      (hcalm : Calm i s) : HasEffect s i (.jump t)
  | write {i : Instr} {d : RegIdx} {v : Word} {t : Int} (hwritten : regWritten i = some d)
      (hpc : nextPcOf i s = (t % 8192).toNat) (hcalm : Calm i s) : HasEffect s i (.write d v t)
  | store {r v : RegIdx} {imm : Imm7} (hea : s.effectiveAddress r imm < 8192) :
      HasEffect s (.sw r v imm) (.store (s.effectiveAddress r imm) (s.readReg v))
  | halt : HasEffect s (.j s.pc) .halt
  | loadFault {r d : RegIdx} {imm : Imm7} {drawn : Nat} (hea : 8192 ≤ s.effectiveAddress r imm) :
      HasEffect s (.lw r d imm) (.fault drawn .loadAddrOutOfRange (s.effectiveAddress r imm))
  | storeFault {r v : RegIdx} {imm : Imm7} (hea : 8192 ≤ s.effectiveAddress r imm) :
      HasEffect s (.sw r v imm) (.fault 0 .storeAddrOutOfRange (s.effectiveAddress r imm))
  | skip {r : RegIdx} {imm : Imm7} (hea : 8192 ≤ s.effectiveAddress r imm) : HasEffect s (.lw r 0 imm) .skip

/-! ### Every instruction has one effect, chosen by the registers it reads -/

/-- The state with another register file. -/
abbrev State.withRegs (s : State) (regs : Vector Word 8) : State := { s with regs := regs }

/-- Another register file gives an instruction the same registers to read (R24). -/
def SameReads (i : Instr) (s : State) (regs : Vector Word 8) : Prop :=
  ∀ r ∈ regsRead i, (s.withRegs regs).readReg r = s.readReg r

/-- An effect that an instruction has at a state, and has at every state that differs in registers it does not read. -/
def IsEffectOf (s : State) (i : Instr) (e : Effect) : Prop :=
  HasEffect s i e ∧ ∀ regs, SameReads i s regs → exec i (s.withRegs regs) = .next (e.apply (s.withRegs regs))

theorem State.npc_emod (s : State) : nextAddr s = ((s.npc.toNat : Int) % 8192).toNat := by
  have hlt := s.npc.isLt
  rw [← s.npc_toNat]
  omega

theorem Addr.toNat_emod (a : Addr) : a.toNat = ((a.toNat : Int) % 8192).toNat := by
  have hlt := a.isLt
  omega

theorem State.branchTarget_emod (s : State) (imm : Imm7) :
    (((nextAddr s : Int) + sext7 imm) % 8192).toNat = (s.branchTarget imm % 8192).toNat := by
  rw [State.branchTarget, s.npc_toNat]

/-- A register write does not move the default advance. -/
theorem State.advance_writeReg (s : State) (d : RegIdx) (v : Word) :
    (s.writeReg d v).advance = (s.writeReg d v).postExecute s.npc.toNat := by
  simp only [State.advance, State.npc, State.writeReg_pc]

theorem State.effectiveAddress_withRegs {s : State} {regs : Vector Word 8} {r : RegIdx}
    (h : (s.withRegs regs).readReg r = s.readReg r) (imm : Imm7) :
    (s.withRegs regs).effectiveAddress r imm = s.effectiveAddress r imm := by
  simp only [State.effectiveAddress, h]

/-- One register written, with a value that the registers read determine, and the default advance. -/
theorem isEffectOf_write {i : Instr} {s : State} {d : RegIdx} {v : Word} (hwritten : regWritten i = some d)
    (hpc : nextPcOf i s = nextAddr s) (hcalm : Calm i s)
    (hexec : ∀ regs, SameReads i s regs →
      exec i (s.withRegs regs) = .next ((s.withRegs regs).writeReg d v).advance) :
    IsEffectOf s i (.write d v s.npc.toNat) :=
  ⟨.write hwritten (hpc.trans s.npc_emod) hcalm, fun regs hreads =>
    (hexec regs hreads).trans (congrArg _ ((s.withRegs regs).advance_writeReg d v))⟩

/-- Nothing written, and the default advance. -/
theorem isEffectOf_advance {i : Instr} {s : State} (hwritten : regWritten i = none)
    (hpc : nextPcOf i s = nextAddr s) (hcalm : Calm i s)
    (hexec : ∀ regs, SameReads i s regs → exec i (s.withRegs regs) = .next (s.withRegs regs).advance) :
    IsEffectOf s i (.jump s.npc.toNat) :=
  ⟨.jump hwritten (hpc.trans s.npc_emod) hcalm, hexec⟩

/-- The five operations of opcode 000 that write a register (R90 to R94). -/
theorem isEffectOf_regReg {i : Instr} {s : State} {a b d : RegIdx} (f : Word → Word → Word)
    (hread : regsRead i = [a, b]) (hwritten : regWritten i = some d) (hpc : nextPcOf i s = nextAddr s)
    (hcalm : Calm i s) (hexec : ∀ u, exec i u = .next (regRegResult f a b d u)) :
    IsEffectOf s i (.write d (f (s.readReg a) (s.readReg b)) s.npc.toNat) := by
  refine isEffectOf_write hwritten hpc hcalm fun regs hreads => ?_
  rw [hexec, regRegResult, hreads a (by simp [hread]), hreads b (by simp [hread])]

/-- The two immediate operations that write a register (R97, R98). -/
theorem isEffectOf_regImm {i : Instr} {s : State} {r d : RegIdx} (f : Word → Word)
    (hread : regsRead i = [r]) (hwritten : regWritten i = some d) (hpc : nextPcOf i s = nextAddr s)
    (hcalm : Calm i s) (hexec : ∀ u, exec i u = .next (u.writeReg d (f (u.readReg r))).advance) :
    IsEffectOf s i (.write d (f (s.readReg r)) s.npc.toNat) := by
  refine isEffectOf_write hwritten hpc hcalm fun regs hreads => ?_
  rw [hexec, hreads r (by simp [hread])]

/-- j halts when its target is its own address and jumps otherwise (R99). -/
theorem exists_effect_j (target : Imm13) (s : State) : ∃ e, IsEffectOf s (.j target) e := by
  by_cases hself : target = s.pc
  · subst hself
    exact ⟨.halt, .halt, fun regs _ => if_pos rfl⟩
  · have hcalm : Calm (.j target) s := ⟨rfl, id, fun heq => hself (Instr.j.inj heq)⟩
    exact ⟨.jump target.toNat, .jump rfl (Addr.toNat_emod target) hcalm, fun regs _ => if_neg hself⟩

/-- jeq jumps relative to npc when its registers are equal and advances otherwise (R101). -/
theorem exists_effect_jeq (a b : RegIdx) (imm : Imm7) (s : State) : ∃ e, IsEffectOf s (.jeq a b imm) e := by
  have hcalm : Calm (.jeq a b imm) s := ⟨rfl, id, nofun⟩
  have hexec : ∀ regs, SameReads (.jeq a b imm) s regs → exec (.jeq a b imm) (s.withRegs regs) =
      .next (if s.readReg a = s.readReg b then (s.withRegs regs).postExecute (s.branchTarget imm)
        else (s.withRegs regs).advance) := by
    intro regs hreads
    have ha := hreads a (by simp [regsRead])
    have hb := hreads b (by simp [regsRead])
    simp only [exec, execJeq, sameWord, ha, hb, decide_eq_true_eq]
    rfl
  by_cases heq : s.readReg a = s.readReg b
  · simp only [if_pos heq] at hexec
    exact ⟨.jump (s.branchTarget imm), .jump rfl ((if_pos heq).trans (s.branchTarget_emod imm)) hcalm, hexec⟩
  · simp only [if_neg heq] at hexec
    exact ⟨_, isEffectOf_advance rfl (if_neg heq) hcalm hexec⟩

/-- A load out of range faults, or where it may do so skips; the register file has no part in the choice (R105). -/
theorem exists_effect_loadOutOfRange {s : State} {r d : RegIdx} {imm : Imm7}
    (hea : 8192 ≤ s.effectiveAddress r imm) :
    ∃ e, HasEffect s (.lw r d imm) e ∧
      ∀ regs, loadOutOfRange d (s.effectiveAddress r imm) (s.withRegs regs) = e.apply (s.withRegs regs) := by
  by_cases hd : d = 0
  · subst hd
    by_cases hfree : Config.lwZeroFaults s.freeCount = true
    · exact ⟨.fault 1 _ _, .loadFault hea, fun regs => if_pos hfree⟩
    · exact ⟨.skip, .skip hea, fun regs => if_neg hfree⟩
  · exact ⟨.fault 0 _ _, .loadFault hea, fun regs => if_neg hd⟩

/-- lw loads a word in range (R105). -/
theorem exists_effect_lw (r d : RegIdx) (imm : Imm7) (s : State) : ∃ e, IsEffectOf s (.lw r d imm) e := by
  have haddr : ∀ regs, SameReads (.lw r d imm) s regs →
      (s.withRegs regs).effectiveAddress r imm = s.effectiveAddress r imm :=
    fun regs hreads => State.effectiveAddress_withRegs (hreads r (by simp [regsRead])) imm
  rcases Nat.lt_or_ge (s.effectiveAddress r imm) 8192 with hin | hout
  · have hcalm : Calm (.lw r d imm) s := ⟨rfl, fun ⟨hout, _⟩ => absurd hout (Nat.not_le.2 hin), nofun⟩
    refine ⟨_, isEffectOf_write (v := s.mem.get (s.effectiveAddress r imm)) rfl rfl hcalm fun regs hreads => ?_⟩
    have hexec := execLw_inRange (d := d) ((haddr regs hreads).trans_lt hin)
    rwa [haddr regs hreads] at hexec
  · obtain ⟨e, heffect, happly⟩ := exists_effect_loadOutOfRange (d := d) hout
    refine ⟨e, heffect, fun regs hreads => ?_⟩
    have hexec := execLw_outOfRange (d := d) (hout.trans_eq (haddr regs hreads).symm)
    rwa [haddr regs hreads, happly regs] at hexec

/-- sw stores a word in range and faults out of range (R106). -/
theorem exists_effect_sw (r v : RegIdx) (imm : Imm7) (s : State) : ∃ e, IsEffectOf s (.sw r v imm) e := by
  have haddr : ∀ regs, SameReads (.sw r v imm) s regs →
      (s.withRegs regs).effectiveAddress r imm = s.effectiveAddress r imm :=
    fun regs hreads => State.effectiveAddress_withRegs (hreads r (by simp [regsRead])) imm
  rcases Nat.lt_or_ge (s.effectiveAddress r imm) 8192 with hin | hout
  · refine ⟨_, .store hin, fun regs hreads => ?_⟩
    have hexec := execSw_inRange (v := v) ((haddr regs hreads).trans_lt hin)
    rwa [haddr regs hreads, hreads v (by simp [regsRead])] at hexec
  · refine ⟨_, .storeFault hout, fun regs hreads => ?_⟩
    have hexec := execSw_outOfRange (v := v) (hout.trans_eq (haddr regs hreads).symm)
    rwa [haddr regs hreads] at hexec

/-- Every instruction has an effect at every state. -/
theorem exists_effect (i : Instr) (s : State) : ∃ e, IsEffectOf s i e := by
  cases i with
  | add a b d => exact ⟨_, isEffectOf_regReg _ rfl rfl rfl ⟨rfl, id, nofun⟩ fun _ => rfl⟩
  | sub a b d => exact ⟨_, isEffectOf_regReg _ rfl rfl rfl ⟨rfl, id, nofun⟩ fun _ => rfl⟩
  | or a b d => exact ⟨_, isEffectOf_regReg _ rfl rfl rfl ⟨rfl, id, nofun⟩ fun _ => rfl⟩
  | and a b d => exact ⟨_, isEffectOf_regReg _ rfl rfl rfl ⟨rfl, id, nofun⟩ fun _ => rfl⟩
  | slt a b d => exact ⟨_, isEffectOf_regReg _ rfl rfl rfl ⟨rfl, id, nofun⟩ fun _ => rfl⟩
  | jr a x =>
    refine ⟨.jump (s.readReg a).toNat, .jump rfl rfl ⟨rfl, id, nofun⟩, fun regs hreads => ?_⟩
    rw [← hreads a (by simp [regsRead])]
    rfl
  | reservedFunc5 x | reservedFunc6 x | reservedFunc7 x | reservedFunc9 x | reservedFunc10 x
  | reservedFunc11 x | reservedFunc12 x | reservedFunc13 x | reservedFunc14 x | reservedFunc15 x =>
    exact ⟨_, isEffectOf_advance rfl rfl ⟨rfl, id, nofun⟩ fun _ _ => rfl⟩
  | addi r d imm =>
    exact ⟨_, isEffectOf_regImm (fun x => Word.ofExact ((x.toNat : Int) + sext7 imm)) rfl rfl rfl
      ⟨rfl, id, nofun⟩ fun _ => rfl⟩
  | slti r d imm =>
    exact ⟨_, isEffectOf_regImm (setOnLess · (sext16 imm)) rfl rfl rfl ⟨rfl, id, nofun⟩ fun _ => rfl⟩
  | j target => exact exists_effect_j target s
  | jal target =>
    exact ⟨.write linkReg (s.npc.setWidth 16) target.toNat,
      .write rfl (Addr.toNat_emod target) ⟨rfl, id, nofun⟩, fun _ _ => rfl⟩
  | lw r d imm => exact exists_effect_lw r d imm s
  | sw r v imm => exact exists_effect_sw r v imm s
  | jeq a b imm => exact exists_effect_jeq a b imm s

/-- The effect of an instruction at the state itself. -/
theorem exec_effect (i : Instr) (s : State) : ∃ e, HasEffect s i e ∧ exec i s = .next (e.apply s) := by
  obtain ⟨e, heffect, hexec⟩ := exists_effect i s
  exact ⟨e, heffect, hexec s.regs fun _ _ => rfl⟩

theorem exec_eq_next {i : Instr} {s t : State} (h : exec i s = .next t) : ∃ e, HasEffect s i e ∧ t = e.apply s := by
  obtain ⟨e, heffect, hexec⟩ := exec_effect i s
  exact ⟨e, heffect, Host.Outcome.next.inj (h.symm.trans hexec)⟩

/-- A step of a RUNNING core has the effect of the instruction that the word at pc decodes to. -/
theorem step_effect {s : State} (hrun : s.run = .running) :
    ∃ e, HasEffect s (decode (s.word s.pc)) e ∧ step s = .next (e.apply s) := by
  obtain ⟨t, ht, ⟨hstopped, -⟩ | ⟨-, hexec, -⟩⟩ := step_answers s
  · exact absurd hrun hstopped
  · obtain ⟨e, heffect, rfl⟩ := exec_eq_next hexec
    exact ⟨e, heffect, ht⟩

/-! ### Memory, the next pc and the register written -/

/-- The effect on memory is the store that `storeOf` names (R32, R47). -/
theorem HasEffect.word_apply {s : State} {i : Instr} {e : Effect} (h : HasEffect s i e) (a : Addr) :
    (e.apply s).word a = afterStore (storeOf i s) a (s.word a) := by
  cases h with
  | jump hwritten hpc hcalm => rw [hcalm.noStore]; rfl
  | write hwritten hpc hcalm => rw [hcalm.noStore]; exact s.word_writeReg _ _ a
  | @store r v imm hea =>
    have hstore : storeOf (.sw r v imm) s = some (s.effectiveAddress r imm, s.readReg v) := if_pos hea
    simp only [hstore, afterStore, Effect.apply, State.word, State.advance_mem, Memory.get_set, eq_comm]
  | halt => rfl
  | loadFault hea => rfl
  | @storeFault r v imm hea =>
    have hstore : storeOf (.sw r v imm) s = none := if_neg (Nat.not_lt.2 hea)
    rw [hstore]; rfl
  | skip hea => rfl

/-- Settles O21: what an instruction answers is its effect, whose only store is the one of `storeOf`. -/
theorem onlySwChangesMemory : Obligations.OnlySwChangesMemory := by
  intro i s t ht a
  obtain ⟨e, heffect, rfl⟩ := exec_eq_next ht
  exact heffect.word_apply a

/-- The effect on pc is the one that R29 lists. -/
theorem HasEffect.pc_apply {s : State} {i : Instr} {e : Effect} (h : HasEffect s i e) :
    (e.apply s).pc.toNat = nextPcOf i s := by
  cases h with
  | jump hwritten hpc hcalm => exact (Addr.ofExact_toNat _).trans hpc.symm
  | write hwritten hpc hcalm => exact (Addr.ofExact_toNat _).trans hpc.symm
  | store hea => exact (State.advance_continues _).1
  | halt => rfl
  | loadFault hea => exact State.npc_toNat _
  | storeFault hea => exact State.npc_toNat _
  | skip hea => exact (State.advance_continues _).1

/-- Settles O34: the pc of the effect of each instruction. -/
theorem nextPcSummary : Obligations.NextPcSummary := by
  intro i s
  obtain ⟨e, heffect, hexec⟩ := exec_effect i s
  exact ⟨_, hexec, heffect.pc_apply⟩

/-- No register but the one that `regWritten` names is written (R24). -/
theorem HasEffect.readReg_apply {s : State} {i : Instr} {e : Effect} (h : HasEffect s i e) {r : RegIdx}
    (hr : some r ≠ regWritten i ∨ r = 0) : (e.apply s).readReg r = s.readReg r := by
  cases h with
  | jump hwritten hpc hcalm => exact s.readReg_postExecute _ r
  | write hwritten hpc hcalm =>
    rcases hr with hr | rfl
    · obtain ⟨-, -, hothers, -⟩ := s.writeReg_postExecute _ _ _
      exact hothers r fun heq => hr (by rw [heq, hwritten])
    · rfl
  | store hea => exact State.readReg_advance _ r
  | halt => rfl
  | loadFault hea => rfl
  | storeFault hea => rfl
  | skip hea => exact State.readReg_advance _ r

/-- One effect on two states that differ in their register files: the rest of the results is the same. -/
theorem Effect.apply_withRegs (e : Effect) (s : State) (regs : Vector Word 8) :
    (e.apply (s.withRegs regs)).pc = (e.apply s).pc ∧ (e.apply (s.withRegs regs)).mem = (e.apply s).mem ∧
      (e.apply (s.withRegs regs)).run = (e.apply s).run ∧ (e.apply (s.withRegs regs)).fault = (e.apply s).fault := by
  cases e with
  | write d v target => simp [Effect.apply]
  | jump | store | halt | fault | skip => exact ⟨rfl, rfl, rfl, rfl⟩

/-- One effect on two states that differ in their register files: the register written is the same. -/
theorem HasEffect.written_withRegs {s : State} {i : Instr} {e : Effect} (h : HasEffect s i e) (regs : Vector Word 8)
    (hrun : (e.apply s).run ≠ .faulted) {r : RegIdx} (hr : some r = regWritten i) :
    (e.apply (s.withRegs regs)).readReg r = (e.apply s).readReg r := by
  cases h with
  | jump hwritten hpc hcalm => simp [hwritten] at hr
  | write hwritten hpc hcalm =>
    obtain rfl := Option.some.inj (hr.trans hwritten)
    simp only [Effect.apply, State.readReg_postExecute, State.readReg_writeReg, if_true]
  | store hea => simp [regWritten] at hr
  | halt => simp [regWritten] at hr
  | loadFault hea => exact absurd rfl hrun
  | storeFault hea => exact absurd rfl hrun
  | skip hea =>
    obtain rfl : r = 0 := Option.some.inj hr
    rfl

/-- Settles O33: the registers read choose the effect, and the effect writes only the register of the table. -/
theorem registerReadWriteTable : Obligations.RegisterReadWriteTable := by
  refine ⟨fun i s t ht r hr => ?_, fun i s regs hreads => ?_, fun s a r => s.outputs_regOut a r⟩
  · obtain ⟨e, heffect, rfl⟩ := exec_eq_next ht
    exact heffect.readReg_apply hr
  · obtain ⟨e, heffect, hexec⟩ := exists_effect i s
    obtain ⟨hpc, hmem, hrun, hfault⟩ := e.apply_withRegs s regs
    exact ⟨_, _, hexec s.regs fun _ _ => rfl, hexec regs hreads, hpc, hmem, hrun, hfault,
      fun hnot r => heffect.written_withRegs regs hnot⟩

/-! ### The run state and the fault record -/

/-- A RUNNING core halts exactly by a j to its own address (R35). -/
theorem HasEffect.halted_iff {s : State} {i : Instr} {e : Effect} (h : HasEffect s i e) (hrun : s.run = .running) :
    (e.apply s).run = .halted ↔ i = .j s.pc := by
  cases h with
  | jump hwritten hpc hcalm => simp [Effect.apply, hrun, hcalm.noHalt]
  | write hwritten hpc hcalm => simp [Effect.apply, hrun, hcalm.noHalt]
  | store hea => simp [Effect.apply, hrun]
  | halt => simp [Effect.apply]
  | loadFault hea => simp [Effect.apply]
  | storeFault hea => simp [Effect.apply]
  | skip hea => simp [Effect.apply, hrun]

/-- An instruction that must fault does (R35, R105, R106). -/
theorem HasEffect.faulted_of_mustFault {s : State} {i : Instr} {e : Effect} (h : HasEffect s i e)
    (hmust : mustFault i s) : (e.apply s).run = .faulted := by
  cases h with
  | jump hwritten hpc hcalm => exact absurd hmust hcalm.noFault
  | write hwritten hpc hcalm => exact absurd hmust hcalm.noFault
  | store hea => exact absurd hea (Nat.not_lt.2 hmust)
  | halt => exact hmust.elim
  | loadFault hea => rfl
  | storeFault hea => rfl
  | skip hea =>
    obtain ⟨-, hnonzero⟩ := hmust
    exact absurd rfl hnonzero

/-- The effect on the fault record: kept, or written by a faulting lw or sw on entry to FAULTED (R36, R86). -/
theorem HasEffect.fault_cases {s : State} {i : Instr} {e : Effect} (h : HasEffect s i e) (hrun : s.run = .running) :
    ((e.apply s).run ≠ .faulted ∧ (e.apply s).fault = s.fault) ∨
      ((e.apply s).run = .faulted ∧ (e.apply s).fault.fpc = s.pc ∧
        faultOf i s (e.apply s).fault.cause (e.apply s).fault.faddr.toNat) := by
  cases h with
  | jump | write | store | skip => left; simp [Effect.apply, hrun]
  | halt => left; simp [Effect.apply]
  | @loadFault r _ imm _ hea | @storeFault r _ imm hea =>
    right
    have hfaddr := s.faddrOf_effectiveAddress r imm
    exact ⟨rfl, rfl, rfl, hfaddr, hea.trans_eq hfaddr.symm⟩

/-- A transaction with `rst = 1` leaves the core RUNNING with a clear fault record (R123). -/
theorem transact_rst {inp : Inputs} (hrst : inp.rst = true) (s : State) :
    ∃ t, transact inp s = .next t ∧ t.run = .running ∧ t.fault = FaultRecord.clear := by
  obtain ⟨t, ht, hforms⟩ := transact_answers inp s
  refine ⟨t, ht, ?_⟩
  rcases hforms with ⟨-, -, rfl⟩ | ⟨-, -, rfl⟩ | ⟨hnot, -⟩ | ⟨hnot, -⟩
  · exact ⟨rfl, rfl⟩
  · exact ⟨rfl, rfl⟩
  · simp [hrst] at hnot
  · simp [hrst] at hnot

/-- Releasing `rst` changes nothing. -/
theorem transact_release (s : State) : transact (rstInputs false) s = .next s := rfl

/-- Settles O38: a stopped core keeps its state, and from RUNNING the effect decides the run state. -/
theorem runStateTransitions : Obligations.RunStateTransitions := by
  refine ⟨fun s => ?_, fun s inp hrst => ?_⟩
  · by_cases hrun : s.run = .running
    · obtain ⟨e, heffect, hstep⟩ := step_effect hrun
      refine ⟨_, hstep, by simp [hrun], by simp [hrun], fun _ => ⟨heffect.halted_iff hrun, fun hfaulted => ?_,
        heffect.faulted_of_mustFault⟩⟩
      obtain ⟨hnot, -⟩ | ⟨-, -, hfaultOf⟩ := heffect.fault_cases hrun
      · exact absurd hfaulted hnot
      · exact ⟨_, _, hfaultOf⟩
    · exact ⟨s, step_stopped hrun, fun _ => rfl, fun _ => rfl, fun h => absurd h hrun⟩
  · obtain ⟨t, ht, hrunning, -⟩ := transact_rst hrst s
    exact ⟨t, t, ht, transact_release t, hrunning⟩

/-- Settles O42: of all effects only a fault touches the record, and reset clears it. -/
theorem faultRecordWrittenOnlyOnFault : Obligations.FaultRecordWrittenOnlyOnFault := by
  refine ⟨fun s => ?_, fun s inp a hrst => ?_⟩
  · by_cases hrun : s.run = .running
    · obtain ⟨e, heffect, hstep⟩ := step_effect hrun
      refine ⟨_, hstep, ?_⟩
      obtain ⟨hnot, hkept⟩ | ⟨hfaulted, hrecord⟩ := heffect.fault_cases hrun
      · exact ⟨fun hchanged => absurd hkept hchanged, fun _ hfaulted => absurd hfaulted hnot⟩
      · exact ⟨fun _ => ⟨hrun, hfaulted⟩, fun _ _ => hrecord⟩
    · exact ⟨s, step_stopped hrun, fun hchanged => absurd rfl hchanged, fun h => absurd h hrun⟩
  · obtain ⟨t, ht, -, hclear⟩ := transact_rst hrst s
    refine ⟨t, t, ht, transact_release t, ?_⟩
    simp [State.outputs, hclear, FaultRecord.clear, FaultCause.code]

end Sys2Proof.Machine
end

section
/-! PROOFS. Memory (spec/20_memory.md): what MemRead and MemWrite answer (R45, R46), that the next fetch sees a store (R47,
R57), and that along a run every read returns the most recent store (R55). -/

namespace Sys2Proof.Machine

/-! ### MemRead and MemWrite -/

/-- Settles O19: the two ranges of the address. -/
theorem memReadInRangeOnly : Obligations.MemReadInRangeOnly := by
  intro s a
  rcases Nat.lt_or_ge a 8192 with hin | hout
  · rw [if_neg (Nat.not_le.2 hin), s.word_ofNat hin, s.memRead_inRange hin]
  · rw [if_pos hout, s.memRead_outOfRange hout]

/-- The words of a state whose memory is written at one address. -/
theorem State.word_setMem (s : State) (ea : Nat) (v : Word) (a : Addr) :
    ({ s with mem := s.mem.set ea v } : State).word a = if a.toNat = ea then v else s.word a := by
  simp only [State.word, Memory.get_set, eq_comm]

/-- Settles O20: refused out of range; in range the answer differs in its memory list only, and there in one word. -/
theorem memWriteChangesOneWord : Obligations.MemWriteChangesOneWord := by
  intro s a v
  split
  next hout => exact s.memWrite_outOfRange v hout
  next hin => exact ⟨_, s.memWrite_inRange v (Nat.not_le.1 hin), rfl, s.word_setMem a v⟩

/-! ### The next fetch after a store -/

/-- A step of a RUNNING core executes the instruction that the word at pc decodes to. -/
theorem step_running {s : State} (h : s.run = .running) : step s = exec (decode (s.word s.pc)) s := by
  simp only [step, h, State.fetch_eq]

/-- A sw in range continues, and the word at its effective address is the register's value. -/
theorem exec_sw_inRange {r v : RegIdx} {imm : Imm7} {s : State} (h : s.effectiveAddress r imm < 8192) :
    ∃ t, exec (.sw r v imm) s = .next t ∧ t.run = s.run ∧
      ∀ a : Addr, a.toNat = s.effectiveAddress r imm → t.word a = s.readReg v :=
  ⟨_, execSw_inRange h, rfl, fun a ha => (s.word_setMem _ _ a).trans (if_pos ha)⟩

/-- Settles O22: both steps are steps of a RUNNING core, and the second fetches the word that the first stored. -/
theorem nextFetchSeesStore : Obligations.NextFetchSeesStore := by
  intro r v imm s hrun hdecode hea
  obtain ⟨t, hexec, hkept, hstored⟩ := exec_sw_inRange (v := v) hea
  refine ⟨t, ?_, hexec, fun a ha => ⟨hstored a ha, ?_⟩⟩
  · rw [step_running hrun, hdecode, hexec]
  · have hfetched : ({ t with pc := a } : State).word a = s.readReg v := hstored a ha
    have hrunning : ({ t with pc := a } : State).run = .running := hkept.trans hrun
    rw [step_running hrunning, hfetched]

/-! ### Reads along a run -/

/-- The words after a step: those before it, but for the step's own store. -/
theorem step_word {s t : State} (h : step s = .next t) (a : Addr) :
    t.word a = afterStore (stepStore s) a (s.word a) := by
  unfold stepStore
  split
  next hrun => exact onlySwChangesMemory _ s t ((step_running hrun).symm.trans h) a
  next hstopped =>
    obtain rfl := Host.Outcome.next.inj ((step_stopped hstopped).symm.trans h)
    rfl

/-- The history of n + 1 steps is that of the last n, over what the first step stores. -/
theorem mostRecentStore_succ {s t : State} (h : step s = .next t) (a : Addr) (n : Nat) (v : Word) :
    mostRecentStore a (n + 1) s v = mostRecentStore a n t (afterStore (stepStore s) a v) := by
  simp only [mostRecentStore, h]

/-- After any number of steps from any state, every word is the most recent store to it, or the word it started with. -/
theorem run_word (n : Nat) (s : State) :
    ∃ t : State, core.run n s = .next t ∧ ∀ a : Addr, t.word a = mostRecentStore a n s (s.word a) := by
  induction n generalizing s with
  | zero => exact ⟨s, rfl, fun _ => rfl⟩
  | succ n ih =>
    obtain ⟨u, hstep, -⟩ := step_answers s
    obtain ⟨t, hrun, hword⟩ := ih u
    refine ⟨t, (run_succ hstep).trans hrun, fun a => ?_⟩
    rw [mostRecentStore_succ hstep, ← step_word hstep, hword]

/-- A lw in range to a register other than 0 leaves the word it addresses in that register (R105). -/
theorem exec_lw_readReg {r d : RegIdx} {imm : Imm7} {s : State} {a : Addr} (hd : d ≠ 0)
    (ha : s.effectiveAddress r imm = a.toNat) :
    ∃ u, exec (.lw r d imm) s = .next u ∧ u.readReg d = s.word a := by
  refine ⟨_, execLw_inRange (ha.trans_lt a.isLt), ?_⟩
  rw [State.readReg_advance, State.readReg_writeReg, if_neg hd, if_pos rfl, ha]
  rfl

/-- Settles O23: the words along a run from `MEM_INIT` are its history of stores, and the fetch and lw return such a word. -/
theorem readsReturnMostRecentStore : Obligations.ReadsReturnMostRecentStore := by
  intro params memInit n
  obtain ⟨t, hrun, hword⟩ := run_word n (State.afterReset params memInit)
  simp only [State.word_afterReset] at hword
  refine ⟨t, hrun, hword, ?_, fun r d imm a hd ha => ?_⟩
  · rw [State.fetch_eq, hword]
  · rw [← hword a]
    exact exec_lw_readReg hd ha

end Sys2Proof.Machine
end

section
/-! PROOFS. Decoding and encoding (spec/30_encoding.md): the formats and their fields are inverse to each other (R61 to
R63, R69, R70, R74), and the rows of the opcode table compare the opcode and the function code only (R72). -/

namespace Sys2Proof

/-! ### The fields of the encodings -/

theorem fields_encodeRrr (a b d : RegIdx) (f : BitVec 4) :
    opcodeField (encodeRrr a b d f) = 0 ∧ fieldA (encodeRrr a b d f) = a ∧ fieldB (encodeRrr a b d f) = b ∧
      fieldD (encodeRrr a b d f) = d ∧ funcField (encodeRrr a b d f) = f := by
  simp only [← BitVec.toNat_inj, opcodeField_toNat, fieldA_toNat, fieldB_toNat, fieldD_toNat, funcField_toNat,
    encodeRrr_toNat, BitVec.ofNat_eq_ofNat, BitVec.toNat_ofNat]
  omega

theorem fields_encodeJr (a : RegIdx) (x : BitVec 6) :
    opcodeField (encodeJr a x) = 0 ∧ fieldA (encodeJr a x) = a ∧ jrIgnored (encodeJr a x) = x ∧
      funcField (encodeJr a x) = 8 := by
  simp only [← BitVec.toNat_inj, opcodeField_toNat, fieldA_toNat, jrIgnored_toNat, funcField_toNat, encodeJr_toNat,
    BitVec.ofNat_eq_ofNat, BitVec.toNat_ofNat]
  omega

theorem fields_encodeReserved (x : BitVec 9) (f : BitVec 4) :
    opcodeField (encodeReserved x f) = 0 ∧ reservedIgnored (encodeReserved x f) = x ∧
      funcField (encodeReserved x f) = f := by
  simp only [← BitVec.toNat_inj, opcodeField_toNat, reservedIgnored_toNat, funcField_toNat, encodeReserved_toNat,
    BitVec.ofNat_eq_ofNat, BitVec.toNat_ofNat]
  omega

theorem fields_encodeRri (op : BitVec 3) (a b : RegIdx) (i : Imm7) :
    opcodeField (encodeRri op a b i) = op ∧ fieldA (encodeRri op a b i) = a ∧ fieldB (encodeRri op a b i) = b ∧
      imm7Field (encodeRri op a b i) = i := by
  simp only [← BitVec.toNat_inj, opcodeField_toNat, fieldA_toNat, fieldB_toNat, imm7Field_toNat, encodeRri_toNat]
  omega

theorem fields_encodeJ (op : BitVec 3) (i : Imm13) :
    opcodeField (encodeJ op i) = op ∧ imm13Field (encodeJ op i) = i := by
  simp only [← BitVec.toNat_inj, opcodeField_toNat, imm13Field_toNat, encodeJ_toNat]
  omega

/-- Settles O24: by the format of each instruction, from the fields of that format's encoding. -/
theorem decodeOfEncode : Obligations.DecodeOfEncode := by
  intro i
  cases i with
  | add | sub | or | and | slt => simp [encode, decode, decodeRegReg, fields_encodeRrr]
  | jr => simp [encode, decode, decodeRegReg, fields_encodeJr]
  | reservedFunc5 | reservedFunc6 | reservedFunc7 | reservedFunc9 | reservedFunc10 | reservedFunc11 | reservedFunc12
  | reservedFunc13 | reservedFunc14 | reservedFunc15 => simp [encode, decode, decodeRegReg, fields_encodeReserved]
  | addi | lw | sw | jeq | slti => simp [encode, decode, fields_encodeRri]
  | j | jal => simp [encode, decode, fields_encodeJ]

/-! ### The encodings of the fields -/

theorem encodeRrr_fields {w : Word} {f : BitVec 4} (hop : (opcodeField w).toNat = 0)
    (hf : (funcField w).toNat = f.toNat) : encodeRrr (fieldA w) (fieldB w) (fieldD w) f = w := by
  rw [opcodeField_toNat] at hop
  rw [funcField_toNat] at hf
  apply BitVec.eq_of_toNat_eq
  rw [encodeRrr_toNat, fieldA_toNat, fieldB_toNat, fieldD_toNat]
  omega

theorem encodeJr_fields {w : Word} (hop : (opcodeField w).toNat = 0) (hf : (funcField w).toNat = 8) :
    encodeJr (fieldA w) (jrIgnored w) = w := by
  rw [opcodeField_toNat] at hop
  rw [funcField_toNat] at hf
  apply BitVec.eq_of_toNat_eq
  rw [encodeJr_toNat, fieldA_toNat, jrIgnored_toNat]
  omega

theorem encodeReserved_fields {w : Word} {f : BitVec 4} (hop : (opcodeField w).toNat = 0)
    (hf : (funcField w).toNat = f.toNat) : encodeReserved (reservedIgnored w) f = w := by
  rw [opcodeField_toNat] at hop
  rw [funcField_toNat] at hf
  apply BitVec.eq_of_toNat_eq
  rw [encodeReserved_toNat, reservedIgnored_toNat]
  omega

theorem encodeRri_fields {w : Word} {op : BitVec 3} (hop : (opcodeField w).toNat = op.toNat) :
    encodeRri op (fieldA w) (fieldB w) (imm7Field w) = w := by
  rw [opcodeField_toNat] at hop
  apply BitVec.eq_of_toNat_eq
  rw [encodeRri_toNat, fieldA_toNat, fieldB_toNat, imm7Field_toNat]
  omega

theorem encodeJ_fields {w : Word} {op : BitVec 3} (hop : (opcodeField w).toNat = op.toNat) :
    encodeJ op (imm13Field w) = w := by
  rw [opcodeField_toNat] at hop
  apply BitVec.eq_of_toNat_eq
  rw [encodeJ_toNat, imm13Field_toNat]
  omega

theorem encode_decodeRegReg {w : Word} (hop : (opcodeField w).toNat = 0) : encode (decodeRegReg w) = w := by
  unfold decodeRegReg
  split
  case h_1 hf | h_2 hf | h_3 hf | h_4 hf | h_5 hf => exact encodeRrr_fields hop hf
  case h_9 hf => exact encodeJr_fields hop hf
  case h_6 hf | h_7 hf | h_8 hf | h_10 hf | h_11 hf | h_12 hf | h_13 hf | h_14 hf | h_15 hf =>
    exact encodeReserved_fields hop hf
  case h_16 =>
    have hlt := (funcField w).isLt
    have hf : (funcField w).toNat = 15 := by grind
    exact encodeReserved_fields hop hf

/-- Settles O25: by the opcode, from the encoding of each format's fields. -/
theorem encodeOfDecode : Obligations.EncodeOfDecode := by
  intro w
  unfold decode
  split
  case h_1 hop => exact encode_decodeRegReg hop
  case h_2 hop | h_5 hop | h_6 hop | h_7 hop => exact encodeRri_fields hop
  case h_3 hop | h_4 hop => exact encodeJ_fields hop
  case h_8 =>
    have hlt := (opcodeField w).isLt
    have hop : (opcodeField w).toNat = 7 := by grind
    exact encodeRri_fields hop

/-! ### Sample words -/

/-- Settles O30: ten fixed words, each decoded. -/
theorem sampleWordsDecode : Obligations.SampleWordsDecode := by
  unfold Obligations.SampleWordsDecode
  decide

/-! ### The rows of the opcode table -/

/-- A mask that keeps all bits of a field leaves the field as it is. -/
theorem extractLsb'_and_of_ones {m : Word} {i n : Nat} (hm : m.extractLsb' i n = BitVec.allOnes n) (w : Word) :
    (w &&& m).extractLsb' i n = w.extractLsb' i n := by
  rw [BitVec.extractLsb'_and, hm, BitVec.and_allOnes]

/-- A mask that keeps no bit of a field clears the field. -/
theorem extractLsb'_and_of_zeros {m : Word} {i n : Nat} (hm : m.extractLsb' i n = 0) (w : Word) :
    (w &&& m).extractLsb' i n = 0 := by
  rw [BitVec.extractLsb'_and, hm]
  exact BitVec.and_zero

theorem opcodeField_and_funcMask (w : Word) : opcodeField (w &&& 0xE00F) = opcodeField w :=
  extractLsb'_and_of_ones (by decide) w

theorem funcField_and_funcMask (w : Word) : funcField (w &&& 0xE00F) = funcField w :=
  extractLsb'_and_of_ones (by decide) w

theorem reservedIgnored_and_funcMask (w : Word) : reservedIgnored (w &&& 0xE00F) = 0 :=
  extractLsb'_and_of_zeros (by decide) w

/-- The three fields cover the word. -/
theorem eq_of_fields {v w : Word} (hop : opcodeField v = opcodeField w)
    (hignored : reservedIgnored v = reservedIgnored w) (hfunc : funcField v = funcField w) : v = w := by
  rw [← BitVec.toNat_inj, opcodeField_toNat, opcodeField_toNat] at hop
  rw [← BitVec.toNat_inj, reservedIgnored_toNat, reservedIgnored_toNat] at hignored
  rw [← BitVec.toNat_inj, funcField_toNat, funcField_toNat] at hfunc
  bv_omega

/-- The word with an opcode and a function code and all other bits 0. -/
def tableKey (op : BitVec 3) (f : BitVec 4) : Word := encodeJ op (f.setWidth 13)

theorem fields_tableKey (op : BitVec 3) (f : BitVec 4) :
    opcodeField (tableKey op f) = op ∧ reservedIgnored (tableKey op f) = 0 ∧ funcField (tableKey op f) = f := by
  have hf : (f.setWidth 13).toNat = f.toNat := BitVec.toNat_setWidth_of_le (by decide)
  simp only [tableKey, ← BitVec.toNat_inj, opcodeField_toNat, reservedIgnored_toNat, funcField_toNat, encodeJ_toNat,
    hf, BitVec.ofNat_eq_ofNat, BitVec.toNat_ofNat]
  omega

theorem and_funcMask_eq_tableKey (w : Word) : w &&& 0xE00F = tableKey (opcodeField w) (funcField w) := by
  obtain ⟨hop, hignored, hfunc⟩ := fields_tableKey (opcodeField w) (funcField w)
  exact eq_of_fields ((opcodeField_and_funcMask w).trans hop.symm)
    ((reservedIgnored_and_funcMask w).trans hignored.symm) ((funcField_and_funcMask w).trans hfunc.symm)

/-- The mnemonics of the rows that cover a word. -/
def coveringRows (w : Word) : List String := (opcodeTable.filter fun row => row.covers w).map OpcodeRow.mnemonic

/-- No row compares a bit outside the opcode and the function code. -/
theorem coveringRows_tableKey (w : Word) :
    coveringRows (tableKey (opcodeField w) (funcField w)) = coveringRows w := by
  have hmask : ∀ row ∈ opcodeTable, 0xE00F &&& row.mask = row.mask := by decide
  have hcovers : ∀ row ∈ opcodeTable, row.covers (w &&& 0xE00F) = row.covers w := fun row hrow => by
    rw [OpcodeRow.covers, OpcodeRow.covers, BitVec.and_assoc, hmask row hrow]
  rw [← and_funcMask_eq_tableKey, coveringRows, coveringRows, List.filter_congr hcovers]

theorem coveringRows_encode (i : Instr) : coveringRows (encode i) = [i.mnemonic] := by
  rw [← coveringRows_tableKey]
  cases i with
  | add | sub | or | and | slt | jr | reservedFunc5 | reservedFunc6 | reservedFunc7 | reservedFunc9 | reservedFunc10
  | reservedFunc11 | reservedFunc12 | reservedFunc13 | reservedFunc14 | reservedFunc15 =>
    simp only [encode, fields_encodeRrr, fields_encodeJr, fields_encodeReserved]
    rfl
  | addi | j | jal | lw | sw | jeq | slti =>
    simp only [encode, fields_encodeRri, fields_encodeJ, Instr.mnemonic]
    generalize funcField _ = f
    decide +revert

/-- Settles O26: every word is the encoding of the instruction it decodes to. -/
theorem everyWordHasExactlyOneRow : Obligations.EveryWordHasExactlyOneRow := by
  intro w
  have hrows := coveringRows_encode (decode w)
  rwa [encodeOfDecode w] at hrows

end Sys2Proof
end

section
/-! PROOFS. The encoding equations in the shifts of R74, and the words of assembler lines (R75, R76). -/

namespace Sys2Proof

/-! ### The encoding equations (R74) -/

/-- The six bits jr ignores, written as the two fields of format RRR. -/
theorem encodeJr_eq_encodeRrr (a b d : RegIdx) :
    encodeJr a (BitVec.ofNat 6 (b.toNat * 8 + d.toNat)) = encodeRrr a b d 8 := by
  apply BitVec.eq_of_toNat_eq
  simp only [encodeJr_toNat, encodeRrr_toNat, BitVec.ofNat_eq_ofNat, BitVec.toNat_ofNat]
  omega

/-- The nine bits a reserved function code ignores, written as the three fields of format RRR. -/
theorem encodeReserved_eq_encodeRrr (a b d : RegIdx) (f : BitVec 4) :
    encodeReserved (BitVec.ofNat 9 (a.toNat * 64 + b.toNat * 8 + d.toNat)) f = encodeRrr a b d f := by
  apply BitVec.eq_of_toNat_eq
  rw [encodeReserved_toNat, encodeRrr_toNat, BitVec.toNat_ofNat]
  omega

theorem encodeJr_shifts (a b d : RegIdx) :
    (encodeJr a (BitVec.ofNat 6 (b.toNat * 8 + d.toNat))).toNat =
      (a.toNat <<< 10) ||| (b.toNat <<< 7) ||| (d.toNat <<< 4) ||| 8 := by
  rw [encodeJr_eq_encodeRrr]
  exact encodeRrr_shifts a b d 8

theorem encodeReserved_shifts (f : BitVec 4) (a b d : RegIdx) :
    (encodeReserved (BitVec.ofNat 9 (a.toNat * 64 + b.toNat * 8 + d.toNat)) f).toNat =
      (a.toNat <<< 10) ||| (b.toNat <<< 7) ||| (d.toNat <<< 4) ||| f.toNat := by
  rw [encodeReserved_eq_encodeRrr, encodeRrr_shifts]

theorem encodeRri_ofInt_shifts (op : BitVec 3) (a b : RegIdx) (i7 : Int) :
    (encodeRri op a b (BitVec.ofInt 7 i7)).toNat =
      (op.toNat <<< 13) ||| (a.toNat <<< 10) ||| (b.toNat <<< 7) ||| (i7 % 128).toNat := by
  rw [encodeRri_shifts, BitVec.toNat_ofInt]
  rfl

/-- Settles O27: each instruction by the equation of its format. -/
theorem encodingEquations : Obligations.EncodingEquations := by
  unfold Obligations.EncodingEquations
  simp only [List.forall_mem_cons, List.not_mem_nil, false_implies, implies_true, and_true]
  refine ⟨⟨?add, ?sub, ?or, ?and, ?slt⟩, encodeJr_shifts, ?reserved, ⟨?addi, ?lw, ?sw, ?jeq, ?slti⟩,
    ⟨encodeJ_shifts 2, encodeJ_shifts 3⟩, by decide⟩
  case add => exact fun a b d => encodeRrr_shifts a b d 0
  case sub => exact fun a b d => encodeRrr_shifts a b d 1
  case or => exact fun a b d => encodeRrr_shifts a b d 2
  case and => exact fun a b d => encodeRrr_shifts a b d 3
  case slt => exact fun a b d => encodeRrr_shifts a b d 4
  case reserved =>
    exact ⟨encodeReserved_shifts 5, encodeReserved_shifts 6, encodeReserved_shifts 7, encodeReserved_shifts 9,
      encodeReserved_shifts 10, encodeReserved_shifts 11, encodeReserved_shifts 12, encodeReserved_shifts 13,
      encodeReserved_shifts 14, encodeReserved_shifts 15⟩
  case addi => exact fun a b i7 _ _ => encodeRri_ofInt_shifts 1 a b i7
  case lw => exact fun a b i7 _ _ => encodeRri_ofInt_shifts 4 a b i7
  case sw => exact fun a b i7 _ _ => encodeRri_ofInt_shifts 5 a b i7
  case jeq => exact fun a b i7 _ _ => encodeRri_ofInt_shifts 6 a b i7
  case slti => exact fun a b i7 _ _ => encodeRri_ofInt_shifts 7 a b i7

/-! ### The words of assembler lines (R75, R76) -/

theorem assemble_eq_some {cur : Nat} {l : AsmLine} {n : Nat} (hl : l.wellFormed cur = true)
    (hn : (l.word cur).toNat = n) : assemble cur l = some (BitVec.ofNat 16 n) := by
  rw [assemble, if_pos hl, ← hn, BitVec.ofNat_toNat, BitVec.setWidth_eq]

theorem encodeRrr_ofNat_toNat {a b d : Nat} (ha : a < 8) (hb : b < 8) (hd : d < 8) (f : BitVec 4) :
    (encodeRrr (BitVec.ofNat 3 a) (BitVec.ofNat 3 b) (BitVec.ofNat 3 d) f).toNat =
      a * 1024 + b * 128 + d * 16 + f.toNat := by
  simp only [encodeRrr_toNat, BitVec.toNat_ofNat]
  omega

theorem encodeRri_ofNat_toNat {a b : Nat} (ha : a < 8) (hb : b < 8) (op : BitVec 3) (imm : Int) :
    (encodeRri op (BitVec.ofNat 3 a) (BitVec.ofNat 3 b) (BitVec.ofInt 7 imm)).toNat =
      op.toNat * 8192 + a * 1024 + b * 128 + (imm % 128).toNat := by
  simp only [encodeRri_toNat, BitVec.toNat_ofNat, BitVec.toNat_ofInt]
  omega

theorem encodeJ_ofNat_toNat {t : Nat} (ht : t < 8192) (op : BitVec 3) :
    (encodeJ op (BitVec.ofNat 13 t)).toNat = op.toNat * 8192 + t := by
  simp only [encodeJ_toNat, BitVec.toNat_ofNat]
  omega

theorem regOk_of_lt {n : Nat} (h : n < 8) : regOk n = true := decide_eq_true h

theorem addrOk_of_lt {a : Nat} (h : a < 8192) : addrOk a = true := decide_eq_true h

theorem immOk_iff (v : Int) : immOk v = true ↔ -64 ≤ v ∧ v ≤ 63 := by
  rw [immOk, Bool.and_eq_true, decide_eq_true_iff, decide_eq_true_iff]

theorem assemble_rrr (cur : Nat) {d a b : Nat} (hd : d < 8) (ha : a < 8) (hb : b < 8) :
    ∀ p ∈ [(RrrOp.add, 0), (RrrOp.sub, 1), (RrrOp.or, 2), (RrrOp.and, 3), (RrrOp.slt, 4)],
      assemble cur (.rrr p.1 d a b) = some (BitVec.ofNat 16 (a * 1024 + b * 128 + d * 16 + p.2)) := by
  have hwf (op : RrrOp) : (AsmLine.rrr op d a b).wellFormed cur = true := by
    simp [AsmLine.wellFormed, regOk_of_lt, hd, ha, hb]
  have hword := encodeRrr_ofNat_toNat ha hb hd
  simp only [List.forall_mem_cons, List.not_mem_nil, false_implies, implies_true, and_true]
  exact ⟨assemble_eq_some (hwf .add) (hword 0), assemble_eq_some (hwf .sub) (hword 1),
    assemble_eq_some (hwf .or) (hword 2), assemble_eq_some (hwf .and) (hword 3),
    assemble_eq_some (hwf .slt) (hword 4)⟩

theorem assemble_jr (cur : Nat) {a : Nat} (ha : a < 8) :
    assemble cur (.jr a) = some (BitVec.ofNat 16 (a * 1024 + 8)) := by
  refine assemble_eq_some (regOk_of_lt ha) ?_
  simp only [AsmLine.word, encode, encodeJr_toNat, BitVec.ofNat_eq_ofNat, BitVec.toNat_ofNat]
  omega

/-- The five lines of format RRI, each by the equation of the format. -/
theorem assemble_rri (cur : Nat) {x y : Nat} {imm : Int} (hx : x < 8) (hy : y < 8) (hlow : -64 ≤ imm)
    (hhigh : imm ≤ 63) :
    assemble cur (.addi y x imm) = some (BitVec.ofNat 16 (1 * 8192 + x * 1024 + y * 128 + (imm % 128).toNat)) ∧
    assemble cur (.slti y x imm) = some (BitVec.ofNat 16 (7 * 8192 + x * 1024 + y * 128 + (imm % 128).toNat)) ∧
    assemble cur (.lw y imm x) = some (BitVec.ofNat 16 (4 * 8192 + x * 1024 + y * 128 + (imm % 128).toNat)) ∧
    assemble cur (.sw y imm x) = some (BitVec.ofNat 16 (5 * 8192 + x * 1024 + y * 128 + (imm % 128).toNat)) ∧
    assemble cur (.jeq x y imm) = some (BitVec.ofNat 16 (6 * 8192 + x * 1024 + y * 128 + (imm % 128).toNat)) := by
  have himm : immOk imm = true := (immOk_iff imm).2 ⟨hlow, hhigh⟩
  have hyx : (regOk y && regOk x && immOk imm) = true := by simp [regOk_of_lt, hx, hy, himm]
  have hxy : (regOk x && regOk y && immOk imm) = true := by rw [Bool.and_comm (regOk x), hyx]
  have hword (op : BitVec 3) := encodeRri_ofNat_toNat hx hy op imm
  exact ⟨assemble_eq_some hyx (hword 1), assemble_eq_some hyx (hword 7), assemble_eq_some hyx (hword 4),
    assemble_eq_some hyx (hword 5), assemble_eq_some hxy (hword 6)⟩

/-- The two lines of format J. -/
theorem assemble_jump (cur : Nat) {addr : Nat} (haddr : addr < 8192) :
    assemble cur (.j addr) = some (BitVec.ofNat 16 (2 * 8192 + addr)) ∧
      assemble cur (.jal addr) = some (BitVec.ofNat 16 (3 * 8192 + addr)) := by
  have hwf := addrOk_of_lt haddr
  have hword := encodeJ_ofNat_toNat haddr
  exact ⟨assemble_eq_some hwf (hword 2), assemble_eq_some hwf (hword 3)⟩

theorem assemble_jeqLabel (cur a b : Nat) {label : Nat} (hlabel : label < 8192) :
    assemble cur (.jeqLabel a b label) = assemble cur (.jeq a b (labelOffset cur label)) := by
  simp [assemble, AsmLine.wellFormed, AsmLine.word, addrOk_of_lt hlabel]

theorem assemble_jeq_outOfRange (cur a b : Nat) {off : Int} (hoff : off < -64 ∨ 63 < off) :
    assemble cur (.jeq a b off) = none := by
  have himm : immOk off = false := by
    rw [Bool.eq_false_iff, Ne, immOk_iff]
    omega
  simp [assemble, AsmLine.wellFormed, himm]

theorem assemble_fill (cur : Nat) {v : Nat} (hv : v < 65536) : assemble cur (.fill v) = some (BitVec.ofNat 16 v) :=
  if_pos (decide_eq_true hv)

/-- Settles O29: each kind of line by its own lemma. -/
theorem assemblerNotationWords : Obligations.AssemblerNotationWords :=
  ⟨fun cur _ _ _ => assemble_rrr cur, fun cur _ => assemble_jr cur, fun cur _ _ _ => assemble_rri cur,
    fun cur _ => assemble_jump cur,
    fun cur a b _ => assemble_jeqLabel cur a b, fun cur a b _ => assemble_jeq_outOfRange cur a b,
    fun _ _ => rfl, fun cur _ => assemble_fill cur, fun _ => rfl⟩

end Sys2Proof
end

section
/-! PROOFS. The bits that a word's instruction ignores (R71). -/

namespace Sys2Proof

open Machine

/-- Words that agree under a mask agree in a field all of whose bits the mask keeps. -/
theorem extractLsb'_eq_of_and_eq {m v w : Word} {i n : Nat} (hm : m.extractLsb' i n = BitVec.allOnes n)
    (h : v &&& m = w &&& m) : v.extractLsb' i n = w.extractLsb' i n := by
  rw [← extractLsb'_and_of_ones hm v, h, extractLsb'_and_of_ones hm w]

theorem funcField_toNat_eq_and (w : Word) : (funcField w).toNat = (w &&& 0x000F).toNat := by
  rw [funcField_toNat, BitVec.toNat_and]
  exact (Nat.and_two_pow_sub_one_eq_mod w.toNat 4).symm

theorem decode_jr {w : Word} (hop : opcodeField w = 0) (hfunc : funcField w = 8) :
    decode w = .jr (fieldA w) (jrIgnored w) := by
  simp [decode, decodeRegReg, hop, hfunc]

/-- A word of a reserved function code is a no-op, whatever its ignored bits are (R96). -/
theorem exec_decode_reserved {w : Word} (hop : opcodeField w = 0)
    (hfunc : (funcField w).toNat ∈ [5, 6, 7, 9, 10, 11, 12, 13, 14, 15]) (s : State) :
    exec (decode w) s = .next s.advance := by
  have hdecode : decode w = decodeRegReg w := by simp [decode, hop]
  rw [hdecode, decodeRegReg]
  simp only [List.mem_cons, List.not_mem_nil, or_false] at hfunc
  rcases hfunc with h | h | h | h | h | h | h | h | h | h <;> rw [h] <;> rfl

/-- Two jr words with the same regSrcA execute alike. -/
theorem exec_decode_jr_congr {v w : Word} (hrow : w &&& 0xE00F = 0x0008) (hsame : v &&& 0xFC0F = w &&& 0xFC0F)
    (s : State) : exec (decode v) s = exec (decode w) s := by
  have hop : opcodeField w = 0 := by rw [← opcodeField_and_funcMask, hrow]; rfl
  have hfunc : funcField w = 8 := by rw [← funcField_and_funcMask, hrow]; rfl
  have hop' : opcodeField v = opcodeField w := extractLsb'_eq_of_and_eq (by decide) hsame
  have hfunc' : funcField v = funcField w := extractLsb'_eq_of_and_eq (by decide) hsame
  have hregSrcA : fieldA v = fieldA w := extractLsb'_eq_of_and_eq (by decide) hsame
  rw [decode_jr hop hfunc, decode_jr (hop'.trans hop) (hfunc'.trans hfunc), hregSrcA]
  rfl

/-- Two words of one reserved function code are the same no-op. -/
theorem exec_decode_reserved_congr {v w : Word} (hopcode : w &&& 0xE000 = 0x0000)
    (hreserved : (w &&& 0x000F).toNat ∈ [5, 6, 7, 9, 10, 11, 12, 13, 14, 15]) (hsame : v &&& 0xE00F = w &&& 0xE00F)
    (s : State) : exec (decode v) s = exec (decode w) s := by
  have hop : opcodeField w = 0 := extractLsb'_eq_of_and_eq (w := 0) (m := 0xE000) (by decide) hopcode
  have hop' : opcodeField v = opcodeField w := extractLsb'_eq_of_and_eq (by decide) hsame
  have hfunc' : funcField v = funcField w := extractLsb'_eq_of_and_eq (by decide) hsame
  rw [← funcField_toNat_eq_and] at hreserved
  rw [exec_decode_reserved hop hreserved, exec_decode_reserved (hop'.trans hop) (by rwa [hfunc'])]

theorem decode_injective : Function.Injective decode :=
  Function.LeftInverse.injective encodeOfDecode

/-- Settles O28: no meaning reads an ignored operand; and decoding is injective, on all words since the ignored bits are
operands (log entry 8). -/
theorem ignoredBitsChangeNothing : Obligations.IgnoredBitsChangeNothing :=
  ⟨fun _ _ s hrow hsame => exec_decode_jr_congr hrow hsame s,
    fun _ _ s hopcode hreserved hsame => exec_decode_reserved_congr hopcode hreserved hsame s,
    fun _ _ _ hdecode => decode_injective hdecode⟩

end Sys2Proof
end

section
/-! PROOFS. The cycle (spec/40_cycle.md): when a step is taken and what it executes (R77, R78), the commit of a register write
(R83), the jumps that loop forever, and the host's step limit (R89, R130). -/

namespace Sys2Proof.Machine

/-! ### The instruction that a step executes -/

/-- Settles O35: the fetch always answers the word at pc. -/
theorem stepRunsTheDecodedInstruction : Obligations.StepRunsTheDecodedInstruction :=
  fun _ hrun => step_running hrun

/-- A word written as a table word of 16 bits is that word again. -/
theorem Word.ofNat_toNat_mod (w : Word) : BitVec.ofNat 16 (w.toNat % 2 ^ 16) = w := by
  rw [Nat.mod_eq_of_lt w.isLt, BitVec.ofNat_toNat, BitVec.setWidth_eq]

/-- A placed word is the one at pc. -/
theorem State.word_withFetchWord (s : State) (w : Word) : (s.withFetchWord 16 w.toNat).word s.pc = w := by
  rw [State.word, State.withFetchWord_mem, Memory.get_set_same, Word.ofNat_toNat_mod]

theorem decodeTableWord_toNat (w : Word) : decodeTableWord 16 w.toNat = some (decode w) := by
  rw [decodeTableWord, if_pos le_rfl, Word.ofNat_toNat_mod]

/-- Settles O36: the placed word is the one that the core, set RUNNING, fetches. -/
theorem placedWordIsExecuted : Obligations.PlacedWordIsExecuted := by
  refine fun s w => ⟨?_, decodeTableWord_toNat w⟩
  rw [step_running (s.withFetchWord_run 16 w.toNat), State.withFetchWord_pc, s.word_withFetchWord]

/-! ### When a step is taken -/

/-- Any number of steps leaves a stopped core as it is (R77). -/
theorem run_stopped {s : State} (h : s.run ≠ .running) (n : Nat) : core.run n s = .next s := by
  induction n with
  | zero => rfl
  | succ n ih => exact (run_succ (step_stopped h)).trans ih

/-- Settles O37: a stopped core keeps its state, and `transact` looks at a step request only while `rst = 0`. -/
theorem stepOnlyWhileRunningAndRequested : Obligations.StepOnlyWhileRunningAndRequested := by
  refine fun s => ⟨fun hstopped => ⟨step_stopped hstopped, run_stopped hstopped⟩, step_running,
    fun inp => ⟨fun hrst => ?_, fun hrst => ?_⟩⟩
  · simp [transact, hrst]
  · simp [transact, hrst]

/-! ### The commit of a register write -/

/-- Settles O32: a write to register 0 is discarded, and any other changes one cell of the register file. -/
theorem registerWriteCommit : Obligations.RegisterWriteCommit := by
  refine fun s d v => ⟨fun hzero => ?_, fun hd => ⟨?_, fun r hr => ?_, ?_⟩⟩
  · rw [hzero, s.writeReg_zero]
  · rw [State.readReg_writeReg, if_neg hd, if_pos rfl]
  · rw [State.readReg_writeReg, if_neg hr]
    split
    next hzero => rw [hzero, State.readReg_zero]
    next => rfl
  · rw [s.writeReg_of_ne v hd]

/-! ### Jumps to their own address that are not the halt idiom -/

/-- The instructions that at a state jump to their own address without being the halt idiom (R89). -/
inductive SelfJump (s : State) : Instr → Prop
  | jal {target : Imm13} (htarget : target = s.pc) : SelfJump s (.jal target)
  | jr {a : RegIdx} {ignored : BitVec 6} (htarget : (s.readReg a).toNat % 8192 = s.pc.toNat) :
      SelfJump s (.jr a ignored)
  | jeq {a b : RegIdx} (htaken : s.readReg a = s.readReg b) : SelfJump s (.jeq a b 127)

/-- An offset of -1 from npc is the instruction's own address (R67, R101). -/
theorem State.branchTarget_self (s : State) : Addr.ofExact (s.branchTarget 127) = s.pc := by
  have hlt := s.pc.isLt
  have hoffset : sext7 127 = -1 := by decide
  apply BitVec.eq_of_toNat_eq
  rw [Addr.ofExact_toNat, ← s.branchTarget_emod, hoffset, nextAddr]
  omega

/-- A self-jump comes back to the same word and is again a self-jump: jal reads no register, jr and jeq write none. -/
theorem SelfJump.exec_returns {s : State} {i : Instr} (h : SelfJump s i) :
    ∃ t, exec i s = .next t ∧ t.run = s.run ∧ t.pc = s.pc ∧ (∀ a, t.word a = s.word a) ∧ SelfJump t i := by
  cases h with
  | @jal target htarget =>
    have hpc : Addr.ofExact target.toNat = target := Addr.ofExact_of_addr target
    exact ⟨_, rfl, s.writeReg_run _ _, hpc.trans htarget, s.word_writeReg _ _, .jal hpc.symm⟩
  | @jr a _ htarget =>
    have hpc : (s.postExecute (s.readReg a).toNat).pc = s.pc :=
      BitVec.eq_of_toNat_eq ((Addr.ofExact_toNat_natCast _).trans htarget)
    exact ⟨_, rfl, rfl, hpc, fun _ => rfl, .jr (by rw [State.readReg_postExecute, hpc, htarget])⟩
  | @jeq a b htaken =>
    have hexec : exec (.jeq a b 127) s = .next (s.postExecute (s.branchTarget 127)) := by
      simp [exec, execJeq, sameWord, htaken]
    exact ⟨_, hexec, rfl, s.branchTarget_self, fun _ => rfl,
      .jeq (by rw [State.readReg_postExecute, State.readReg_postExecute, htaken])⟩

/-- A RUNNING core at a self-jump is still there after any number of steps. -/
theorem run_selfJump (n : Nat) {s : State} (hrun : s.run = .running) (hjump : SelfJump s (decode (s.word s.pc))) :
    ∃ t : State, core.run n s = .next t ∧ t.run = .running ∧ t.pc = s.pc := by
  induction n generalizing s with
  | zero => exact ⟨s, rfl, hrun, rfl⟩
  | succ n ih =>
    obtain ⟨u, hexec, hkept, hpc, hword, hagain⟩ := hjump.exec_returns
    rw [← hword, ← hpc] at hagain
    obtain ⟨t, hrest, hrunning, hback⟩ := ih (hkept.trans hrun) hagain
    exact ⟨t, (run_succ ((step_running hrun).trans hexec)).trans hrest, hrunning, hback.trans hpc⟩

/-- Settles O40: each of the three is a self-jump. -/
theorem selfJumpsOtherThanJLoopForever : Obligations.SelfJumpsOtherThanJLoopForever := by
  intro s hrun hinstr n
  refine run_selfJump n hrun ?_
  rcases hinstr with hjal | ⟨a, ignored, hjr, htarget⟩ | ⟨a, b, hjeq, htaken⟩
  · rw [hjal]; exact .jal rfl
  · rw [hjr]; exact .jr htarget
  · rw [hjeq]; exact .jeq htaken

/-! ### The host's step limit -/

/-- The report names the run state of the state it shows. -/
theorem State.report_iff (s : State) :
    (s.report = .notEnded s ↔ s.run = .running) ∧ (s.report = .halted s ↔ s.run = .halted) ∧
      (s.report = .faulted s ↔ s.run = .faulted) := by
  unfold State.report
  cases s.run <;> simp

/-- A run under the limit reports where the unlimited run of as many steps stands: once stopped, steps change nothing. -/
theorem runLimited_reports (n : Nat) (s : State) :
    ∃ t : State, core.run n s = .next t ∧ runLimited n s = .next t.report := by
  induction n generalizing s with
  | zero => exact ⟨s, rfl, rfl⟩
  | succ n ih =>
    by_cases hrun : s.run = .running
    · obtain ⟨u, hstep, -⟩ := step_answers s
      obtain ⟨t, hrest, hreport⟩ := ih u
      exact ⟨t, (run_succ hstep).trans hrest, by simpa only [runLimited, if_pos hrun, hstep] using hreport⟩
    · exact ⟨s, run_stopped hrun _, if_neg hrun⟩

/-- Settles O41: the state that the run reaches, and its report by its run state. -/
theorem stepLimitReportsStateReached : Obligations.StepLimitReportsStateReached := by
  intro n s
  obtain ⟨t, hrun, hreport⟩ := runLimited_reports n s
  exact ⟨t, hrun, hreport, t.report_iff⟩

end Sys2Proof.Machine
end

section
/-! PROOFS. Opcode 000, the register-register group (spec/41_reg_reg.md, R90 to R96): each instruction's word, read back from the
number of its encoding string, and its answer as one of three forms of the end of a step. -/

namespace Sys2Proof.Machine

open Laws

/-! ### The word of an instruction and the end of its step -/

/-- The number of an instruction's word decodes to the instruction. -/
theorem decode_ofNat {i : Instr} {n : Nat} (hnumber : (encode i).toNat = n) : decode (BitVec.ofNat 16 n) = i := by
  rw [← hnumber, BitVec.ofNat_toNat, BitVec.setWidth_eq]
  exact decodeOfEncode i

/-- An instruction that writes one register and goes on at npc (R83, R84). -/
theorem exec_writeReg_advance {i : Instr} {s : State} {d : RegIdx} {w : Word} {v : Nat} (hvalue : w.toNat = v)
    (hexec : exec i s = .next (s.writeReg d w).advance) :
    ∃ t, exec i s = .next t ∧ ContinuesAt s t (nextAddr s) ∧ WritesReg s t d v := by
  subst hvalue
  exact ⟨_, hexec, s.writeReg_advance d w⟩

/-! ### The five operations that write regDst (R90 to R94) -/

theorem Word.ofExact_add_toNat (x y : Word) :
    (Word.ofExact ((x.toNat : Int) + y.toNat)).toNat = (x.toNat + y.toNat) % 65536 := by
  rw [Word.ofExact_toNat]
  omega

theorem setOnLess_toNat (x y : Word) : (setOnLess x y).toNat = if x.toNat < y.toNat then 1 else 0 := by
  unfold setOnLess
  split <;> rfl

/-- Settles O1: add writes the narrowed sum. -/
theorem addWritesSumModulo65536 : Obligations.AddWritesSumModulo65536 := fun a b d _ =>
  ⟨decode_ofNat ((EncodedNumber.add a b d).trans (Nat.add_zero _)), exec_writeReg_advance (Word.ofExact_add_toNat _ _) rfl⟩

/-- Settles O2: sub writes the narrowed difference. -/
theorem subWritesDifferenceModulo65536 : Obligations.SubWritesDifferenceModulo65536 := fun a b d _ =>
  ⟨decode_ofNat (EncodedNumber.sub a b d), exec_writeReg_advance (Word.ofExact_toNat _) rfl⟩

/-- Settles O3: the bitwise or of two words is that of their numbers. -/
theorem orWritesBitwiseOr : Obligations.OrWritesBitwiseOr := fun a b d _ =>
  ⟨decode_ofNat (EncodedNumber.or a b d), exec_writeReg_advance (BitVec.toNat_or _ _) rfl⟩

/-- Settles O4: the bitwise and of two words is that of their numbers. -/
theorem andWritesBitwiseAnd : Obligations.AndWritesBitwiseAnd := fun a b d _ =>
  ⟨decode_ofNat (EncodedNumber.and a b d), exec_writeReg_advance (BitVec.toNat_and _ _) rfl⟩

/-- Settles O5: slt writes the outcome of the unsigned comparison. -/
theorem sltWritesUnsignedLess : Obligations.SltWritesUnsignedLess := fun a b d _ =>
  ⟨decode_ofNat (EncodedNumber.slt a b d), exec_writeReg_advance (setOnLess_toNat _ _) rfl⟩

/-! ### jr (R95) -/

/-- Settles O6: jr ends its step with the register as the candidate, which the cycle reduces. -/
theorem jrJumpsToRegisterModulo8192 : Obligations.JrJumpsToRegisterModulo8192 := fun a ignored s =>
  ⟨decode_ofNat (EncodedNumber.jr a ignored), _, rfl, s.postExecute_continues _, s.postExecute_writesNothing _⟩

/-! ### The reserved function codes (R96) -/

/-- A function code whose instruction is the default advance: its word, and the step that writes nothing. -/
theorem reserved_isNoOp {func : Nat} {instr : BitVec 9 → Instr}
    (hnumber : ∀ ignored, (encode (instr ignored)).toNat = ignored.toNat * 16 + func)
    (hexec : ∀ ignored s, exec (instr ignored) s = .next s.advance) (ignored : BitVec 9) (s : State) :
    decode (BitVec.ofNat 16 (ignored.toNat * 16 + func)) = instr ignored ∧
      ∃ t, exec (instr ignored) s = .next t ∧ ContinuesAt s t (nextAddr s) ∧ WritesNothing s t :=
  ⟨decode_ofNat (hnumber ignored), _, hexec ignored s, s.advance_continues, s.advance_writesNothing⟩

/-- Settles O7: each of the ten codes is the default advance. -/
theorem reservedFunctionCodesAreNoOps : Obligations.ReservedFunctionCodesAreNoOps := by
  unfold Obligations.ReservedFunctionCodesAreNoOps
  simp only [List.forall_mem_cons, List.not_mem_nil, false_implies, implies_true, and_true]
  refine ⟨?func5, ?func6, ?func7, ?func9, ?func10, ?func11, ?func12, ?func13, ?func14, ?func15⟩
  case func5 => exact reserved_isNoOp EncodedNumber.reservedFunc5 fun _ _ => rfl
  case func6 => exact reserved_isNoOp EncodedNumber.reservedFunc6 fun _ _ => rfl
  case func7 => exact reserved_isNoOp EncodedNumber.reservedFunc7 fun _ _ => rfl
  case func9 => exact reserved_isNoOp EncodedNumber.reservedFunc9 fun _ _ => rfl
  case func10 => exact reserved_isNoOp EncodedNumber.reservedFunc10 fun _ _ => rfl
  case func11 => exact reserved_isNoOp EncodedNumber.reservedFunc11 fun _ _ => rfl
  case func12 => exact reserved_isNoOp EncodedNumber.reservedFunc12 fun _ _ => rfl
  case func13 => exact reserved_isNoOp EncodedNumber.reservedFunc13 fun _ _ => rfl
  case func14 => exact reserved_isNoOp EncodedNumber.reservedFunc14 fun _ _ => rfl
  case func15 => exact reserved_isNoOp EncodedNumber.reservedFunc15 fun _ _ => rfl

end Sys2Proof.Machine
end

section
/-! PROOFS. Immediates (spec/42_immediate.md, R97 and R98): addi and slti write one register from another and from the
sign-extended immediate, and go on at npc. -/

namespace Sys2Proof.Machine

open Laws

/-- slti compares with the immediate's unsigned word, whose number is the exact extension reduced (R98). -/
theorem setOnLess_sext16_toNat (x : Word) (imm : Imm7) :
    (setOnLess x (sext16 imm)).toNat = if x.toNat < (sext7 imm % 65536).toNat then 1 else 0 := by
  rw [setOnLess_toNat, ← sext16_toNat, Int.toNat_natCast]

/-- Settles O8: addi adds the immediate's exact signed value and narrows the sum. -/
theorem addiWritesSumWithSignedImmediate : Obligations.AddiWritesSumWithSignedImmediate := fun r d imm _ =>
  ⟨decode_ofNat (EncodedNumber.addi r d imm), exec_writeReg_advance (Word.ofExact_toNat _) rfl⟩

/-- Settles O9: slti writes the outcome of the unsigned comparison with the immediate's word. -/
theorem sltiComparesUnsignedWithExtendedImmediate : Obligations.SltiComparesUnsignedWithExtendedImmediate :=
  fun r d imm _ =>
    ⟨decode_ofNat (EncodedNumber.slti r d imm), exec_writeReg_advance (setOnLess_sext16_toNat _ _) rfl⟩

end Sys2Proof.Machine
end

section
/-! PROOFS. Jumps (spec/43_jumps.md, R99 to R102): j with the halt idiom, jal with its link, jeq relative to npc, and the return
through the link. -/

namespace Sys2Proof.Machine

open Laws

/-- Continuing at an address: the cycle's reduction leaves it as it is (R84). -/
theorem State.postExecute_addr_continues (s : State) (a : Addr) : ContinuesAt s (s.postExecute a.toNat) a.toNat := by
  have hcontinues := s.postExecute_continues a.toNat
  rwa [← Addr.toNat_emod a] at hcontinues

/-! ### j (R99) -/

/-- All that the clean stop does (R85). -/
theorem State.halt_haltsHere (s : State) : HaltsHere s s.halt :=
  ⟨rfl, rfl, ⟨fun _ => rfl, fun _ => rfl⟩, rfl, rfl, rfl⟩

/-- j to its own address halts, and to any other address jumps. -/
theorem exec_j_haltsOrJumps (target : Imm13) (s : State) :
    ∃ t, exec (.j target) s = .next t ∧
      if target = s.pc then HaltsHere s t else ContinuesAt s t target.toNat ∧ WritesNothing s t := by
  by_cases hself : target = s.pc
  · refine ⟨s.halt, if_pos hself, ?_⟩
    rw [if_pos hself]
    exact s.halt_haltsHere
  · refine ⟨s.postExecute target.toNat, if_neg hself, ?_⟩
    rw [if_neg hself]
    exact ⟨s.postExecute_addr_continues target, s.postExecute_writesNothing _⟩

/-- Settles O11: j by whether its target is its own address, and of all effects only that j's is the halt. -/
theorem jHaltsAtItsOwnAddressElseJumps : Obligations.JHaltsAtItsOwnAddressElseJumps := by
  refine ⟨fun target s => ⟨decode_ofNat (EncodedNumber.j target), exec_j_haltsOrJumps target s⟩, ?_⟩
  intro i s t hexec hrun hhalted
  obtain ⟨e, heffect, rfl⟩ := exec_eq_next hexec
  exact (heffect.halted_iff hrun).mp hhalted

/-! ### jeq (R101) -/

/-- The target of a taken jeq from `cur`: reducing npc first changes nothing modulo 8192. -/
theorem State.branchTarget_emod_pc (s : State) (imm : Imm7) :
    (s.branchTarget imm % 8192).toNat = (((s.pc.toNat : Int) + 1 + sext7 imm) % 8192).toNat := by
  rw [← s.branchTarget_emod, nextAddr]
  omega

/-- jeq jumps or advances by the equality of its registers. -/
theorem exec_jeq (a b : RegIdx) (imm : Imm7) (s : State) :
    exec (.jeq a b imm) s =
      .next (if s.readReg a = s.readReg b then s.postExecute (s.branchTarget imm) else s.advance) := by
  simp only [exec, execJeq, sameWord, decide_eq_true_eq]

/-- Settles O13: a taken jeq ends its step with the branch target as the candidate, another one advances. -/
theorem jeqBranchesRelativeToNpcWhenEqual : Obligations.JeqBranchesRelativeToNpcWhenEqual := by
  refine fun a b imm s => ⟨decode_ofNat (EncodedNumber.jeq a b imm), _, exec_jeq a b imm s, ?_⟩
  by_cases heq : s.readReg a = s.readReg b
  · rw [if_pos heq, if_pos heq, ← s.branchTarget_emod_pc]
    exact ⟨s.postExecute_writesNothing _, s.postExecute_continues _⟩
  · rw [if_neg heq, if_neg heq]
    exact ⟨s.advance_writesNothing, s.advance_continues⟩

/-! ### jal and the return through its link (R100, R102) -/

/-- The link value is npc, which a register holds in full. -/
theorem State.link_toNat (s : State) : (s.npc.setWidth 16).toNat = nextAddr s :=
  (widened_toNat s.npc (by decide)).trans s.npc_toNat

/-- Settles O12: jal writes the link and ends its step with its target as the candidate. -/
theorem jalLinksAndJumps : Obligations.JalLinksAndJumps := by
  intro target s
  have heffect := s.writeReg_postExecute linkReg (s.npc.setWidth 16) target.toNat
  rw [← Addr.toNat_emod target, s.link_toNat] at heffect
  exact ⟨decode_ofNat (EncodedNumber.jal target), _, rfl, heffect⟩

/-- Settles O14: jr reduces the link that jal wrote, which is an address already. -/
theorem jrThroughLinkReturnsAfterJal : Obligations.JrThroughLinkReturnsAfterJal := by
  intro target ignored s
  obtain ⟨-, t, hjal, -, hlink, -⟩ := jalLinksAndJumps target s
  refine ⟨t, hjal, fun later hkept => ?_⟩
  obtain ⟨-, u, hjr, ⟨hpc, -⟩, -⟩ := jrJumpsToRegisterModulo8192 7 ignored later
  refine ⟨u, hjr, ?_⟩
  calc u.pc.toNat = (t.readReg 7).toNat % 8192 := by rw [hpc, hkept]
    _ = nextAddr s % 8192 := congrArg (· % 8192) hlink
    _ = (s.pc.toNat + 1) % 8192 := Nat.mod_mod _ _

end Sys2Proof.Machine
end

section
/-! PROOFS. Loads and stores (spec/44_load_store.md, R104 to R106): lw and sw by whether their effective address is in range, the
round trip of a word through memory, and the reduction of the address to its width. -/

namespace Sys2Proof.Machine

open Laws

/-- A fault at the effective address: all that it does, with the address recorded in full (R86, R108). -/
theorem State.takeFault_effectiveAddress (s : State) (c : FaultCause) (r : RegIdx) (imm : Imm7) :
    FaultsWith s (s.takeFault c (faddrOf (s.effectiveAddress r imm))) c (s.effectiveAddress r imm) := by
  have hfaults := s.takeFault_faults c (faddrOf (s.effectiveAddress r imm))
  rwa [s.faddrOf_effectiveAddress] at hfaults

/-! ### lw (R105) -/

/-- lw in range writes the word it addresses to its register and goes on at npc. -/
theorem exec_lw_loads {r d : RegIdx} {imm : Imm7} {s : State} (hin : s.effectiveAddress r imm < 8192) :
    ∃ t, exec (.lw r d imm) s = .next t ∧ ContinuesAt s t (nextAddr s) ∧
      WritesReg s t d (s.word (BitVec.ofNat 13 (s.effectiveAddress r imm))).toNat :=
  exec_writeReg_advance (congrArg BitVec.toNat (s.word_ofNat hin).symm) (execLw_inRange hin)

/-- lw out of range faults, or for register 0 may change pc only: drawing the free value shows in neither. -/
theorem exec_lw_outOfRange {r d : RegIdx} {imm : Imm7} {s : State} (hout : 8192 ≤ s.effectiveAddress r imm) :
    ∃ t, exec (.lw r d imm) s = .next t ∧
      if d ≠ 0 then
        FaultsWith s t .loadAddrOutOfRange (s.effectiveAddress r imm) ∧ t.freeCount = s.freeCount
      else
        FaultsWith s t .loadAddrOutOfRange (s.effectiveAddress r imm) ∨
          (t.pc.toNat = nextAddr s ∧ t.run = s.run ∧ t.fault = s.fault ∧ t.params = s.params ∧ WritesNothing s t) := by
  refine ⟨_, execLw_outOfRange hout, ?_⟩
  rcases loadOutOfRange_cases d (s.effectiveAddress r imm) s with ⟨hd, heq⟩ | ⟨hd, heq⟩ | ⟨hd, heq⟩
  · rw [if_pos hd, heq]
    exact ⟨s.takeFault_effectiveAddress _ r imm, rfl⟩
  · rw [if_neg (not_not_intro hd), heq]
    exact .inl (s.drawFree.takeFault_effectiveAddress _ r imm)
  · rw [if_neg (not_not_intro hd), heq]
    obtain ⟨hpc, -⟩ := s.drawFree.advance_continues
    exact .inr ⟨hpc, rfl, rfl, rfl, s.drawFree.advance_writesNothing⟩

/-- Settles O16: the two ranges of the effective address, the second only under the 14-bit width. -/
theorem lwLoadsWordOrFaults : Obligations.LwLoadsWordOrFaults := by
  refine fun r d imm s => ⟨decode_ofNat (EncodedNumber.lw r d imm), ?_⟩
  split
  next hin => exact exec_lw_loads hin
  next hout =>
    have hout := Nat.not_lt.1 hout
    obtain ⟨t, hexec, hanswer⟩ := exec_lw_outOfRange (d := d) hout
    exact ⟨t, hexec, State.bits14_of_outOfRange hout, hanswer⟩

/-! ### sw (R106) -/

/-- sw in range stores its register's word at its address and goes on at npc. -/
theorem exec_sw_stores {r v : RegIdx} {imm : Imm7} {s : State} (hin : s.effectiveAddress r imm < 8192) :
    ∃ t, exec (.sw r v imm) s = .next t ∧ ContinuesAt s t (nextAddr s) ∧
      StoresWord s t (s.effectiveAddress r imm) (s.readReg v) :=
  ⟨_, execSw_inRange hin, State.advance_continues _, State.readReg_advance _, s.word_setMem _ _⟩

/-- Settles O17: the two ranges of the effective address, the second only under the 14-bit width. -/
theorem swStoresWordOrFaults : Obligations.SwStoresWordOrFaults := by
  refine fun r v imm s => ⟨decode_ofNat (EncodedNumber.sw r v imm), ?_⟩
  split
  next hin => exact exec_sw_stores hin
  next hout =>
    have hout := Nat.not_lt.1 hout
    exact ⟨_, execSw_outOfRange hout, State.bits14_of_outOfRange hout, s.takeFault_effectiveAddress _ r imm, rfl⟩

/-! ### A load after a store (spec/95_test_vectors.md S5) -/

/-- The effective address depends on the base register and the parameters alone (R104). -/
theorem State.effectiveAddress_congr {s t : State} {r : RegIdx} (hbase : t.readReg r = s.readReg r)
    (hparams : t.params = s.params) (imm : Imm7) : t.effectiveAddress r imm = s.effectiveAddress r imm := by
  simp only [State.effectiveAddress, hbase, hparams]

/-- Settles O18: sw leaves the base register alone, so lw reads the word just stored. -/
theorem storeThenLoadReturnsValue : Obligations.StoreThenLoadReturnsValue := by
  intro r v d imm s hin hd
  obtain ⟨t, hsw, ⟨-, -, -, -, hparams, -⟩, hregs, hwords⟩ := exec_sw_stores (v := v) hin
  have haddr : t.effectiveAddress r imm = s.effectiveAddress r imm :=
    State.effectiveAddress_congr (hregs r) hparams imm
  have hcell : (BitVec.ofNat 13 (s.effectiveAddress r imm)).toNat = s.effectiveAddress r imm := Nat.mod_eq_of_lt hin
  obtain ⟨u, hlw, hloaded⟩ := exec_lw_readReg hd (haddr.trans hcell.symm)
  exact ⟨t, u, hsw, hlw, by rw [hloaded, hwords, if_pos hcell]⟩

/-! ### The effective address under both widths (R104) -/

/-- The effective address is the exact sum reduced to the width. -/
theorem State.effectiveAddress_emod (s : State) (r : RegIdx) (imm : Imm7) :
    (s.effectiveAddress r imm : Int) =
      (((s.readReg r).toNat : Int) + sext7 imm) % (2 : Int) ^ s.params.lsAddrBits.width :=
  Int.toNat_of_nonneg (Int.emod_nonneg _ (by positivity))

/-- Before the reduction, the sum of a word and a signed 7-bit value. -/
theorem add_sext7_range (x : Word) (imm : Imm7) :
    -64 ≤ (x.toNat : Int) + sext7 imm ∧ (x.toNat : Int) + sext7 imm ≤ 65598 := by
  have hword := x.isLt
  obtain ⟨hlow, hhigh⟩ := sext7_range imm
  omega

/-- lw and sw in range keep the run state, since both continue. -/
theorem exec_lw_or_sw_run {r d : RegIdx} {imm : Imm7} {s t : State} (hin : s.effectiveAddress r imm < 8192)
    (hexec : exec (.lw r d imm) s = .next t ∨ exec (.sw r d imm) s = .next t) : t.run = s.run := by
  rcases hexec with hlw | hsw
  · obtain ⟨u, hu, ⟨-, -, hrun, -⟩, -⟩ := exec_lw_loads (d := d) hin
    rwa [Host.Outcome.next.inj (hlw.symm.trans hu)]
  · obtain ⟨u, hu, ⟨-, -, hrun, -⟩, -⟩ := exec_sw_stores (v := d) hin
    rwa [Host.Outcome.next.inj (hsw.symm.trans hu)]

/-- An instruction that must fault answers a FAULTED state. -/
theorem exec_faulted_of_mustFault {i : Instr} {s : State} (hmust : mustFault i s) :
    ∃ t, exec i s = .next t ∧ t.run = .faulted := by
  obtain ⟨e, heffect, hexec⟩ := exec_effect i s
  exact ⟨_, hexec, heffect.faulted_of_mustFault hmust⟩

/-- Settles O15: 13 bits reduce every address into range, 14 bits leave out of range those at which lw and sw must fault. -/
theorem effectiveAddressReducedToWidth : Obligations.EffectiveAddressReducedToWidth := by
  intro r imm s
  obtain ⟨hlow, hhigh⟩ := add_sext7_range (s.readReg r) imm
  refine ⟨hlow, hhigh, ?_⟩
  have hsum := s.effectiveAddress_emod r imm
  have hlt := s.effectiveAddress_lt r imm
  split
  next hwidth =>
    rw [hwidth] at hsum hlt
    exact ⟨hsum, hlt, fun _ _ => exec_lw_or_sw_run hlt⟩
  next hwidth =>
    rw [hwidth] at hsum hlt
    exact ⟨hsum, hlt, fun hout _ =>
      ⟨fun hd => exec_faulted_of_mustFault ⟨hout, hd⟩, exec_faulted_of_mustFault hout⟩⟩

end Sys2Proof.Machine
end

section
/-! PROOFS. Faults (spec/60_exceptions.md, R108, R109, R112): what a step that faults does and records, which instructions it can
be, and which width and memory make it reachable. -/

namespace Sys2Proof.Machine

/-! ### What a step that faults does and records -/

/-- An effect that leads to FAULTED is a fault with its record (R86, R112). -/
theorem HasEffect.faultsWith {s : State} {i : Instr} {e : Effect} (h : HasEffect s i e) (hrun : s.run = .running)
    (hfaulted : (e.apply s).run = .faulted) :
    FaultsWith s (e.apply s) (e.apply s).fault.cause (e.apply s).fault.faddr.toNat := by
  cases h with
  | jump | write | store | skip => simp [Effect.apply, hrun] at hfaulted
  | halt => simp [Effect.apply] at hfaulted
  | loadFault hea => exact State.takeFault_faults _ _ _
  | storeFault hea => exact State.takeFault_faults _ _ _

/-- The inversion of a step that faults: all that it does, and that its record is the one of a lw or sw out of range. -/
theorem step_faulted {s t : State} (hrun : s.run = .running) (hstep : step s = .next t) (hfaulted : t.run = .faulted) :
    FaultsWith s t t.fault.cause t.fault.faddr.toNat ∧
      faultOf (decode (s.word s.pc)) s t.fault.cause t.fault.faddr.toNat := by
  obtain ⟨e, heffect, hanswer⟩ := step_effect hrun
  obtain rfl := Host.Outcome.next.inj (hstep.symm.trans hanswer)
  obtain ⟨hnot, -⟩ | ⟨-, -, hrecord⟩ := heffect.fault_cases hrun
  · exact absurd hfaulted hnot
  · exact ⟨heffect.faultsWith hrun hfaulted, hrecord⟩

/-- Only lw and sw have a fault to record, and only for an address out of range. -/
theorem faultOf_lw_or_sw {i : Instr} {s : State} {c : FaultCause} {ea : Nat} (h : faultOf i s c ea) :
    ∃ (r x : RegIdx) (imm : Imm7), (i = .lw r x imm ∨ i = .sw r x imm) ∧ 8192 ≤ s.effectiveAddress r imm := by
  cases i with
  | lw r d imm =>
    obtain ⟨-, rfl, hout⟩ := h
    exact ⟨r, d, imm, .inl rfl, hout⟩
  | sw r v imm =>
    obtain ⟨-, rfl, hout⟩ := h
    exact ⟨r, v, imm, .inr rfl, hout⟩
  | _ => exact h.elim

theorem faultOf_bits14 {i : Instr} {s : State} {c : FaultCause} {ea : Nat} (h : faultOf i s c ea) :
    s.params.lsAddrBits = .bits14 := by
  obtain ⟨r, x, imm, -, hout⟩ := faultOf_lw_or_sw h
  exact State.bits14_of_outOfRange hout

/-- Settles O43: a fault writes the record, pc and the run state, and a FAULTED core keeps its state. -/
theorem faultIsPreciseButForPc : Obligations.FaultIsPreciseButForPc := by
  intro s hrun
  obtain ⟨t, hstep, -⟩ := step_answers s
  refine ⟨t, hstep, fun hfaulted => ?_⟩
  obtain ⟨⟨-, -, hfpc, -, hpc, hwrites, -⟩, -⟩ := step_faulted hrun hstep hfaulted
  exact ⟨hwrites, hpc, hfpc, run_stopped (by simp [hfaulted])⟩

theorem FaultCause.code_lt_six (c : FaultCause) : c.code.toNat < 6 := by
  cases c <;> decide

/-- Settles O44: an instruction that must fault does, and a fault has the record of a lw or sw out of range. -/
theorem faultCausesAndCodes : Obligations.FaultCausesAndCodes := by
  refine ⟨rfl, rfl, rfl, rfl, rfl, rfl, FaultCause.code_lt_six, fun s hrun => ?_⟩
  obtain ⟨e, heffect, hstep⟩ := step_effect hrun
  refine ⟨_, hstep, heffect.faulted_of_mustFault, fun hfaulted => ?_⟩
  obtain ⟨⟨-, -, hfpc, -⟩, hrecord⟩ := step_faulted hrun hstep hfaulted
  exact ⟨hfpc, faultOf_bits14 hrecord, hrecord⟩

/-! ### Which faults are reachable (R109) -/

/-- What every step keeps holds after any number of steps. -/
theorem run_keeps {P : State → Prop} (keeps : ∀ s t, step s = .next t → P s → P t) (n : Nat) {s : State} (hs : P s) :
    ∃ t : State, core.run n s = .next t ∧ P t := by
  induction n generalizing s with
  | zero => exact ⟨s, rfl, hs⟩
  | succ n ih =>
    obtain ⟨u, hstep, -⟩ := step_answers s
    obtain ⟨t, hrun, ht⟩ := ih (keeps s u hstep hs)
    exact ⟨t, (run_succ hstep).trans hrun, ht⟩

/-- A core of the 13-bit width that is not FAULTED. -/
def State.NotFaultedUnder13 (s : State) : Prop :=
  s.params.lsAddrBits = .bits13 ∧ s.run ≠ .faulted

/-- Every fault takes the 14-bit width, so a step under the 13-bit width does not fault. -/
theorem step_keeps_notFaultedUnder13 {s t : State} (hstep : step s = .next t) (hs : s.NotFaultedUnder13) :
    t.NotFaultedUnder13 := by
  obtain ⟨h13, hnot⟩ := hs
  refine ⟨by rw [step_params hstep, h13], ?_⟩
  by_cases hrun : s.run = .running
  · intro hfaulted
    obtain ⟨-, hrecord⟩ := step_faulted hrun hstep hfaulted
    have h14 := faultOf_bits14 hrecord
    simp [h13] at h14
  · obtain rfl := Host.Outcome.next.inj ((step_stopped hrun).symm.trans hstep)
    exact hnot

/-- A core just reset whose `MEM_INIT` has the word of one instruction at every address. -/
abbrev State.filledWith (params : Params) (i : Instr) : State := State.afterReset params fun _ => encode i

theorem step_filledWith (params : Params) (i : Instr) :
    step (State.filledWith params i) = exec i (State.filledWith params i) := by
  rw [step_running (State.afterReset_run _ _), State.word_afterReset, decodeOfEncode i]

/-- An instruction that must fault in a core just reset and filled with it faults in the first step. -/
theorem run_filledWith_faults {params : Params} {i : Instr} (hmust : mustFault i (State.filledWith params i)) :
    ∃ t : State, core.run 1 (State.filledWith params i) = .next t ∧ t.run = .faulted ∧
      faultOf i (State.filledWith params i) t.fault.cause t.fault.faddr.toNat := by
  obtain ⟨t, hexec, hfaulted⟩ := exec_faulted_of_mustFault hmust
  have hstep := (step_filledWith params i).trans hexec
  obtain ⟨-, hrecord⟩ := step_faulted (State.afterReset_run _ _) hstep hfaulted
  rw [State.word_afterReset, decodeOfEncode i] at hrecord
  exact ⟨t, run_succ hstep, hfaulted, hrecord⟩

/-- The offset -1 from register 0 wraps to the last address of 14 bits, 16383 (spec/95_test_vectors.md P5). -/
theorem belowZero_outOfRange (s : State) (h14 : s.params.lsAddrBits = .bits14) :
    8192 ≤ s.effectiveAddress 0 127 := by
  rw [State.effectiveAddress, h14, State.readReg_zero]
  decide

/-- Settles O45: 13 bits by an invariant of every step, 14 bits by `lw $1,-1($0)` and `sw $1,-1($0)` at address 0, and the
instructions by the inversion of a step that faults. -/
theorem faultReachability : Obligations.FaultReachability := by
  refine ⟨fun s h13 hs n => ?_, ?_, ?_, fun s t hrun hstep hfaulted => ?_⟩
  · obtain ⟨t, hrun, -, hnot⟩ := run_keeps (fun _ _ => step_keeps_notFaultedUnder13) n ⟨h13, hs⟩
    exact ⟨t, hrun, hnot⟩
  · obtain ⟨t, hrun, hfaulted, hcause, -⟩ :=
      run_filledWith_faults (i := .lw 0 1 127) ⟨belowZero_outOfRange _ rfl, by decide⟩
    exact ⟨_, 1, t, hrun, hfaulted, hcause⟩
  · obtain ⟨t, hrun, hfaulted, hcause, -⟩ :=
      run_filledWith_faults (i := .sw 0 1 127) (belowZero_outOfRange _ rfl)
    exact ⟨_, 1, t, hrun, hfaulted, hcause⟩
  · obtain ⟨-, hrecord⟩ := step_faulted hrun hstep hfaulted
    obtain ⟨r, x, imm, hinstr, -⟩ := faultOf_lw_or_sw hrecord
    exact ⟨r, x, imm, hinstr⟩

end Sys2Proof.Machine
end

section
/-! PROOFS. Reset and the boot order (spec/70_reset_and_hazards.md, R123, R125, R126): the state that a transaction with
`rst = 1` leaves, the invariant after reset, and the image that the boot order writes. -/

namespace Sys2Proof.Machine

/-! ### The reset values -/

/-- The values that reset gives to everything but memory (R123). -/
def State.HasResetValues (s : State) : Prop :=
  s.pc = 0 ∧ s.regs = Vector.replicate 8 0 ∧ s.run = .running ∧ s.fault = FaultRecord.clear

theorem State.readReg_of_regs_zero {s : State} (h : s.regs = Vector.replicate 8 0) (r : RegIdx) : s.readReg r = 0 := by
  obtain ⟨hzero, hreset, -⟩ := resetRegistersAndPcAreZero
  rw [State.readReg_congr (h.trans hreset.symm), hzero]

/-- At the reset values only the canonical form of memory is left of the invariant. -/
theorem State.HasResetValues.inv {s : State} (h : s.HasResetValues) (hwf : s.mem.wf = true) : s.Inv := by
  obtain ⟨-, hregs, hrun, hclear⟩ := h
  exact ⟨by simp [hregs], hwf, fun _ => hclear, fun hfaulted => by simp [hrun] at hfaulted⟩

theorem State.afterReset_hasResetValues (params : Params) (memInit : Addr → Word) :
    (State.afterReset params memInit).HasResetValues :=
  ⟨rfl, rfl, rfl, rfl⟩

/-! ### A transaction with `rst = 1` -/

/-- The state that a transaction with `rst = 1` leaves: the reset values, and the load port's word. -/
def State.underReset (s : State) (inp : Inputs) : State :=
  if inp.ldWe then s.applyReset.loadWord inp.ldAddr inp.ldData else s.applyReset

theorem transact_underReset {inp : Inputs} (hrst : inp.rst = true) (s : State) :
    transact inp s = .next (s.underReset inp) :=
  if_pos hrst

theorem State.underReset_hasResetValues (s : State) (inp : Inputs) : (s.underReset inp).HasResetValues := by
  unfold State.underReset
  split <;> exact ⟨rfl, rfl, rfl, rfl⟩

@[simp] theorem State.underReset_params (s : State) (inp : Inputs) : (s.underReset inp).params = s.params := by
  unfold State.underReset
  split <;> rfl

/-- The load port's address is inside the memory, so its write keeps the canonical form. -/
theorem State.underReset_mem_wf {s : State} (hwf : s.mem.wf = true) (inp : Inputs) :
    (s.underReset inp).mem.wf = true := by
  unfold State.underReset
  split
  · exact Memory.wf_set hwf inp.ldAddr.isLt inp.ldData
  · exact hwf

theorem State.word_underReset (s : State) (inp : Inputs) (a : Addr) :
    (s.underReset inp).word a = if inp.ldWe = true ∧ a = inp.ldAddr then inp.ldData else s.word a := by
  unfold State.underReset
  split
  next hload =>
    rw [State.word_loadWord]
    simp only [hload, true_and]
    rfl
  next hno =>
    rw [if_neg fun ⟨hload, _⟩ => hno hload]
    rfl

/-- Settles O47: each of the three states has the reset values and a canonical memory. -/
theorem resetEstablishesInvariant : Obligations.ResetEstablishesInvariant := by
  refine ⟨?_, fun params memInit => ?_, fun s inp hrst hwf => ⟨_, transact_underReset hrst s, ?_⟩⟩
  · have hvalues : State.reset.HasResetValues := ⟨rfl, rfl, rfl, rfl⟩
    exact hvalues.inv State.reset_mem_wf
  · have hwf : (State.afterReset params memInit).mem.wf = true := by
      rw [State.afterReset_mem, Memory.wf_ofInit]
    exact (State.afterReset_hasResetValues params memInit).inv hwf
  · exact (s.underReset_hasResetValues inp).inv (State.underReset_mem_wf hwf inp)

/-- Settles O49: under reset a step request is ignored, and releasing `rst` leaves the state as reset and the load port
made it. -/
theorem resetState : Obligations.ResetState := by
  refine ⟨fun s inp hrst => ?_, fun params memInit => ?_⟩
  · have hnext := transact_underReset hrst s
    obtain ⟨-, -, hrequests⟩ := stepOnlyWhileRunningAndRequested s
    obtain ⟨-, hignored⟩ := hrequests inp
    have hnoRequest : transact { inp with stepReq := false } s = .next (s.underReset inp) :=
      (hignored hrst).symm.trans hnext
    obtain ⟨hpc, hregs, hrun, hclear⟩ := s.underReset_hasResetValues inp
    exact ⟨_, _, hnext, hnoRequest, transact_release _, hpc, State.readReg_of_regs_zero hregs, hrun, hclear,
      s.underReset_params inp, s.word_underReset inp⟩
  · obtain ⟨hpc, hregs, hrun, hclear⟩ := State.afterReset_hasResetValues params memInit
    exact ⟨hpc, State.readReg_of_regs_zero hregs, hrun, hclear, State.word_afterReset params memInit⟩

/-! ### The boot order -/

theorem transactAll_cons {inp : Inputs} {s u : State} (h : transact inp s = .next u) (rest : List Inputs) :
    transactAll (inp :: rest) s = transactAll rest u := by
  simp only [transactAll, h]

/-- Transactions after others start from the state that those reach. -/
theorem transactAll_append {xs : List Inputs} {s t : State} (h : transactAll xs s = .next t) (ys : List Inputs) :
    transactAll (xs ++ ys) s = transactAll ys t := by
  induction xs generalizing s with
  | nil =>
    obtain rfl := Host.Outcome.next.inj h
    rfl
  | cons inp rest ih =>
    obtain ⟨u, hu, -⟩ := transact_params inp s
    rw [transactAll_cons hu] at h
    rw [List.cons_append, transactAll_cons hu, ih h]

/-- One word of an image through the load port. -/
theorem State.word_underReset_loadInputs (s : State) {k : Nat} (hk : k < 8192) (v : Word) (a : Addr) :
    (s.underReset (loadInputs k v)).word a = if a.toNat = k then v else s.word a := by
  have haddr : a = BitVec.ofNat 13 k ↔ a.toNat = k := by
    rw [← BitVec.toNat_inj, BitVec.toNat_ofNat, Nat.mod_eq_of_lt hk]
  rw [State.word_underReset]
  simp only [loadInputs, true_and, haddr]

/-- An image that fits, written from address `k` on under reset: its words stand at `k` and above, and no other word
changes. -/
theorem transactAll_imageInputs (image : List Word) {k : Nat} {s : State} (hs : s.HasResetValues)
    (hfit : k + image.length ≤ 8192) :
    ∃ t, transactAll (imageInputs k image) s = .next t ∧ t.HasResetValues ∧
      ∀ a : Addr, t.word a = if a.toNat < k then s.word a else (image[a.toNat - k]?).getD (s.word a) := by
  induction image generalizing k s with
  | nil => exact ⟨s, rfl, hs, fun a => by simp⟩
  | cons w rest ih =>
    rw [List.length_cons] at hfit
    obtain ⟨t, ht, hvalues, hwords⟩ :=
      ih (k := k + 1) (s.underReset_hasResetValues (loadInputs k w)) (by omega)
    refine ⟨t, (transactAll_cons (transact_underReset rfl s) _).trans ht, hvalues, fun a => ?_⟩
    rw [hwords, s.word_underReset_loadInputs (by omega)]
    rcases Nat.lt_trichotomy a.toNat k with hbelow | hhere | habove
    · rw [if_pos (by omega), if_neg (by omega), if_pos hbelow]
    · simp [hhere]
    · have hindex : a.toNat - k = a.toNat - (k + 1) + 1 := by omega
      rw [if_neg (by omega), if_neg (by omega), if_neg (by omega), hindex, List.getElem?_cons_succ]

/-- Settles O51: assert `rst`, the image by induction on its words from address 0 on, and a release that changes nothing. -/
theorem bootLoadsImage : Obligations.BootLoadsImage := by
  intro image s
  split
  next hlarge => exact if_pos hlarge
  next hfits =>
    obtain ⟨t, ht, ⟨hpc, hregs, hrun, hclear⟩, hwords⟩ := transactAll_imageInputs image (k := 0)
      (s.underReset_hasResetValues (rstInputs true)) (by omega)
    have hboot : transactAll (rstInputs true :: (imageInputs 0 image ++ [rstInputs false])) s = .next t := by
      rw [transactAll_cons (transact_underReset rfl s), transactAll_append ht, transactAll_cons (transact_release t)]
      rfl
    refine ⟨t, (if_neg hfits).trans (congrArg some hboot), hpc, State.readReg_of_regs_zero hregs, hrun, hclear,
      fun a => ?_⟩
    rw [hwords, if_neg (Nat.not_lt_zero _), Nat.sub_zero]
    rfl

end Sys2Proof.Machine
end
